-- ==== Sys2Proof/Word.lean ====
section
/-! DEFINITION. The word types of the core (00_scope.md R5, R8): bytes, 16-bit words, the operand widths, register
numbers and key codes. Every value is unsigned; nothing here computes. -/

namespace Sys2Proof

/-- One byte of memory, one general register, one timer (R5: 8 bits). -/
abbrev Byte := BitVec 8

/-- A 16-bit value: the instruction word, `I`, `pc`, a stack entry (R5). -/
abbrev Word := BitVec 16

/-- A 12-bit address immediate, the `nnn` field (30_encoding.md R91). -/
abbrev Addr12 := BitVec 12

/-- A 4-bit operand, the `n` field (30_encoding.md R91). -/
abbrev Nibble := BitVec 4

/-- A general register number, 0 to 15 (10_state.md R21). -/
abbrev Reg := Fin 16

/-- A key code, 0 to 15 (10_state.md R41, R42). -/
abbrev Key := Fin 16

/-- VF, register number 15 (10_state.md R22). -/
abbrev vf : Reg := 15

end Sys2Proof
end

