-- ==== Sys2Proof/Syntax.lean ====
section
/-! DEFINITION. The 35 instructions (30_encoding.md R94), one constructor per row of the opcode table, in the table's
order, with operands already split into register numbers and immediates (R93). -/

namespace Sys2Proof

/-- The instruction set. Each constructor's comment gives its pattern and mnemonic as in R94. -/
inductive Instr where
  /-- 00E0 CLS -/
  | cls
  /-- 00EE RET -/
  | ret
  /-- 0NNN SYS addr -/
  | sys (nnn : Addr12)
  /-- 1NNN JP addr -/
  | jp (nnn : Addr12)
  /-- 2NNN CALL addr -/
  | call (nnn : Addr12)
  /-- 3XNN SE Vx,byte -/
  | seByte (x : Reg) (kk : Byte)
  /-- 4XNN SNE Vx,byte -/
  | sneByte (x : Reg) (kk : Byte)
  /-- 5XY0 SE Vx,Vy -/
  | seReg (x y : Reg)
  /-- 6XNN LD Vx,byte -/
  | ldByte (x : Reg) (kk : Byte)
  /-- 7XNN ADD Vx,byte -/
  | addByte (x : Reg) (kk : Byte)
  /-- 8XY0 LD Vx,Vy -/
  | ldReg (x y : Reg)
  /-- 8XY1 OR Vx,Vy -/
  | orReg (x y : Reg)
  /-- 8XY2 AND Vx,Vy -/
  | andReg (x y : Reg)
  /-- 8XY3 XOR Vx,Vy -/
  | xorReg (x y : Reg)
  /-- 8XY4 ADD Vx,Vy -/
  | addReg (x y : Reg)
  /-- 8XY5 SUB Vx,Vy -/
  | subReg (x y : Reg)
  /-- 8XY6 SHR Vx,Vy -/
  | shr (x y : Reg)
  /-- 8XY7 SUBN Vx,Vy -/
  | subnReg (x y : Reg)
  /-- 8XYE SHL Vx,Vy -/
  | shl (x y : Reg)
  /-- 9XY0 SNE Vx,Vy -/
  | sneReg (x y : Reg)
  /-- ANNN LD I,addr -/
  | ldI (nnn : Addr12)
  /-- BNNN JP V0,addr -/
  | jpV0 (nnn : Addr12)
  /-- CXNN RND Vx,byte -/
  | rnd (x : Reg) (kk : Byte)
  /-- DXYN DRW Vx,Vy,n -/
  | drw (x y : Reg) (n : Nibble)
  /-- EX9E SKP Vx -/
  | skp (x : Reg)
  /-- EXA1 SKNP Vx -/
  | sknp (x : Reg)
  /-- FX07 LD Vx,DT -/
  | ldVxDt (x : Reg)
  /-- FX0A LD Vx,K -/
  | ldVxK (x : Reg)
  /-- FX15 LD DT,Vx -/
  | ldDtVx (x : Reg)
  /-- FX18 LD ST,Vx -/
  | ldStVx (x : Reg)
  /-- FX1E ADD I,Vx -/
  | addI (x : Reg)
  /-- FX29 LD F,Vx -/
  | ldF (x : Reg)
  /-- FX33 LD B,Vx -/
  | ldB (x : Reg)
  /-- FX55 LD [I],Vx -/
  | storeRegs (x : Reg)
  /-- FX65 LD Vx,[I] -/
  | loadRegs (x : Reg)
deriving DecidableEq, Repr

end Sys2Proof
end

