-- ==== Sys2Proof/Config.lean ====
section
/-! DEFINITION. What one core is built with, and the free values: constants with no body, so that nothing can be proved
about which value they have (00_scope.md R6; 10_state.md R35, R41 to R43; log entries 4, 5, 8). -/

namespace Sys2Proof

/-- The two values of each configuration flag (00_scope.md R6). -/
inductive Variant where
  | legacy
  | modern
deriving DecidableEq, Repr, Inhabited

/-- CONFIG, the pair of construction-time flags (10_state.md R36). -/
structure CoreConfig where
  /-- SHIFT_SOURCE: which register the shifts read (44_shift.md R182). -/
  shiftSource : Variant
  /-- INDEX_ADVANCE: what bulk store and bulk load do to `I` (46_memory_index.md R201). -/
  indexAdvance : Variant
deriving DecidableEq, Repr, Inhabited

/-- The three inputs the host supplies to one Step (10_state.md R41 to R43). -/
structure StepInputs where
  /-- `KeyPressed(k)` for k in 0 to 15 (R41). -/
  keysDown : Vector Bool 16
  /-- `KeyEvent`: the key that became pressed since the last poll, if any (R42). -/
  keyEvent : Option Key
  /-- `RandByte()`: the byte of the host's random source (R43). -/
  randByte : Byte
deriving DecidableEq, Repr, Inhabited

/-- The host operations that change the core (40_execution_cycle.md R132). -/
inductive HostOp where
  /-- Step, with the three inputs the host supplies to it (R120). -/
  | step (inputs : StepInputs)
  /-- Tick (49_timers.md R233). -/
  | tick
  /-- LoadRom of a byte sequence (R131). -/
  | loadRom (rom : List Byte)
  /-- Reset (70_reset_and_hazards.md R270). -/
  | reset
deriving DecidableEq, Repr, Inhabited

/-- CONFIG of the core that `State.reset` describes. The spec gives it no default (92_eei_decisions.md D24), so it is a
constant with no body (DESIGN CHOICE, log entry 4: safe). -/
opaque Config.construction : CoreConfig

/-- The k-th operation of the host when the agenda does not list it: a free value, so that every order of Steps, Ticks,
LoadRoms and Resets is admitted, without end (93_implementation_defined.md U1; 49_timers.md R234; DESIGN CHOICE,
log entry 6: safe). -/
opaque Config.hostOp : Nat → HostOp

/-- The inputs of a Step that nobody supplied, the k-th operation: free values (DESIGN CHOICE, log entry 5: safe). -/
opaque Config.stepInputs : Nat → StepInputs

/-- The word field of FAULT after a fetch error, which 10_state.md R35 leaves unspecified: a free value, applied to the
number of the operation (DESIGN CHOICE, log entry 8: safe). -/
opaque Config.unspecifiedWord : Nat → Word

end Sys2Proof
end

