-- ==== Sys2Proof/Machine/State.lean ====
section
/-! DEFINITION. The state of one core (10_state.md R20) as plain data, the host's side of its interface (R40 to R44,
40_execution_cycle.md R132) beside it, and the state after Reset (R45). -/

namespace Sys2Proof.Machine

/-- MEM as a list of (address, byte), addresses strictly rising, listing only the bytes that differ from the reset
contents (`Memory.wf` in Machine/Memory.lean; 20_memory.md R60, R61, log entry 11). -/
abbrev Memory := List Host.Cell

/-- `FB[r][c]`: 32 rows of 64 one-bit pixels (10_state.md R32). -/
abbrev Framebuffer := Vector (Vector Bool 64) 32

/-- RUN (10_state.md R33). -/
inductive RunState where
  | running
  | awaitingKey
  | halted
deriving DecidableEq, Repr

/-- The fatal errors (60_exceptions.md R240). -/
inductive ErrorKind where
  /-- CALL with SP = 16 (R241). -/
  | stackOverflow
  /-- RET with SP = 0 (R242). -/
  | stackUnderflow
  /-- SYS, always (R243). -/
  | unsupportedOpcode
  /-- A fetched word with no decode match (R244). -/
  | unknownOpcode
  /-- A fetch or an access by LD B, LD [I], LD Vx,[I] or DRW above address 4095 (R245). -/
  | memoryOutOfBounds
deriving DecidableEq, Repr

/-- One FAULT record: the error, the failing program counter, the raw instruction word (10_state.md R35). -/
structure FaultRecord where
  error : ErrorKind
  pc : Word
  word : Word
deriving DecidableEq, Repr

/-- The load-time error of LoadRom, returned to the host (60_exceptions.md R247). -/
inductive LoadError where
  | romTooLarge
deriving DecidableEq, Repr

/-- The host's side of the interface: the model's own data, no state of the core (10_state.md R46; log entries 5, 6, 19). -/
structure HostSide where
  /-- The operations the host has lined up, the next one first; when it is empty the next operation is a free value,
  `Config.hostOp opCount`. -/
  agenda : List HostOp
  /-- The inputs of the Step in progress; every Step writes them before it does anything. -/
  inputs : StepInputs
  /-- How many operations have begun: what free values are applied to. -/
  opCount : Nat
deriving DecidableEq, Repr

/-- The complete state (10_state.md R20), and the host's side of the interface. -/
structure State where
  /-- MEM (R38). -/
  mem : Memory
  /-- V0 to VF (R21). -/
  v : Vector Byte 16
  /-- I, the address register (R23). -/
  i : Word
  /-- The program counter (R24). -/
  pc : Word
  /-- STACK (R28). -/
  stack : Vector Word 16
  /-- SP, the number of return addresses on the stack, 0 to 16 (R29). -/
  sp : Fin 17
  /-- DT, the delay timer (R30). -/
  dt : Byte
  /-- ST, the sound timer (R31). -/
  st : Byte
  /-- FB (R32). -/
  fb : Framebuffer
  /-- RUN (R33). -/
  run : RunState
  /-- WAIT_REG (R34). -/
  waitReg : Reg
  /-- FAULT (R35). -/
  fault : Option FaultRecord
  /-- CONFIG (R36). -/
  config : CoreConfig
  /-- The host's side (the model's own). -/
  host : HostSide
deriving DecidableEq, Repr

/-- Reasons for a stop of the model's own: none. Every error of 60_exceptions.md R240 has an entry the spec describes
(R246, R247) and is a next state, so no definition of the model raises a fault (log entry 7). -/
inductive Fault
deriving DecidableEq, Repr

/-- Reasons to give an instruction no meaning. -/
inductive Refusal where
  /-- Raised by an arm of `exec` for an instruction that has no meaning yet; no arm does so (safe: a refused step proves
  nothing about what the hardware does next). -/
  | notModelled (mnemonic : String)
deriving DecidableEq, Repr

/-- ROM_BASE: the load address and reset pc (00_scope.md R5). -/
def romBase : Nat := 0x200

/-- The state after construction or Reset (10_state.md R45). Values the source does not give are the spec's decision D23
(log entry 3); CONFIG is the construction-time constant (log entry 4); `host` is the model's own (log entry 19). -/
def State.reset : State where
  mem := []
  v := Vector.replicate 16 0
  i := 0
  pc := 0x200
  stack := Vector.replicate 16 0
  sp := 0
  dt := 0
  st := 0
  fb := Vector.replicate 32 (Vector.replicate 64 false)
  run := .running
  waitReg := 0
  fault := none
  config := Config.construction
  host := { agenda := [], inputs := Config.stepInputs 0, opCount := 1 }

end Sys2Proof.Machine
end

