-- ==== Sys2Proof/Machine/Memory.lean ====
section
/-! DEFINITION. MEM: its reset contents, the canonical form of the list that holds it, and reading and writing one byte
and a run of bytes (20_memory.md R60 to R71). Addresses are plain numbers and never wrap (R66); bounds are checked by
the callers through `inBounds` (R64, R65, R67). -/

namespace Sys2Proof.Machine

/-- MEM_SIZE (00_scope.md R5). -/
def memSize : Nat := 4096

/-! ## Reset contents (R61, R62) -/

/-- Glyphs 0 to 3 (R62; the 80 values are the spec's decision D6, log entry 2). -/
def font0to3 : List Byte :=
  [0xF0, 0x90, 0x90, 0x90, 0xF0,
   0x20, 0x60, 0x20, 0x20, 0x70,
   0xF0, 0x10, 0xF0, 0x80, 0xF0,
   0xF0, 0x10, 0xF0, 0x10, 0xF0]

/-- Glyphs 4 to 7 (R62). -/
def font4to7 : List Byte :=
  [0x90, 0x90, 0xF0, 0x10, 0x10,
   0xF0, 0x80, 0xF0, 0x10, 0xF0,
   0xF0, 0x80, 0xF0, 0x90, 0xF0,
   0xF0, 0x10, 0x20, 0x40, 0x40]

/-- Glyphs 8 to B (R62). -/
def font8toB : List Byte :=
  [0xF0, 0x90, 0xF0, 0x90, 0xF0,
   0xF0, 0x90, 0xF0, 0x10, 0xF0,
   0xF0, 0x90, 0xF0, 0x90, 0x90,
   0xE0, 0x90, 0xE0, 0x90, 0xE0]

/-- Glyphs C to F (R62). -/
def fontCtoF : List Byte :=
  [0xF0, 0x80, 0x80, 0x80, 0xF0,
   0xE0, 0x90, 0x90, 0x90, 0xE0,
   0xF0, 0x80, 0xF0, 0x80, 0xF0,
   0xF0, 0x80, 0xF0, 0x80, 0x80]

/-- FONT, the 80 bytes at addresses 0 to 79 after Reset (R62). -/
def fontBytes : List Byte := font0to3 ++ font4to7 ++ font8toB ++ fontCtoF

/-- What an unlisted address reads as: its contents after Reset, the font at 0 to 79 and 0 elsewhere (R61). -/
def resetByte (a : Nat) : Byte := (fontBytes[a]?).getD 0

/-! ## Canonical form -/

/-- Addresses rise strictly from `lo`, exist, and hold something other than their reset contents. -/
def Memory.wfFrom (lo : Nat) : Memory → Bool
  | [] => true
  | (a, b) :: m => decide (lo ≤ a) && decide (a < memSize) && b != resetByte a && Memory.wfFrom (a + 1) m

/-- The canonical form: equal memories are equal lists. -/
def Memory.wf (m : Memory) : Bool := Memory.wfFrom 0 m

/-! ## One byte -/

/-- The byte at an address (R64 with n = 1, the bound checked by the caller). -/
def Memory.read : Memory → Nat → Byte
  | [], a => resetByte a
  | (a', b) :: m, a => if a = a' then b else Memory.read m a

/-- The list with `b` at `a` in front, unless that is the address's reset contents. -/
def Memory.cons (a : Nat) (b : Byte) (m : Memory) : Memory := if b = resetByte a then m else (a, b) :: m

/-- Storing one byte (R65, the bound checked by the caller); the canonical form is kept. -/
def Memory.write : Memory → Nat → Byte → Memory
  | [], a, b => Memory.cons a b []
  | (a', b') :: m, a, b =>
    if a < a' then Memory.cons a b ((a', b') :: m)
    else if a = a' then Memory.cons a b m
    else (a', b') :: Memory.write m a b

/-! ## Runs of bytes -/

/-- Stores a sequence of bytes at `a`, `a + 1`, ... in ascending order (R73). -/
def Memory.storeBytes : Memory → Nat → List Byte → Memory
  | m, _, [] => m
  | m, a, b :: bs => Memory.storeBytes (Memory.write m a b) (a + 1) bs

/-- The `len` bytes at `a`, `a + 1`, ... in ascending order. -/
def Memory.readBytes (m : Memory) (a : Nat) : Nat → List Byte
  | 0 => []
  | len + 1 => Memory.read m a :: Memory.readBytes m (a + 1) len

/-- The two bytes at `a` as one value, most significant byte first (R63, R64 with n = 2). -/
def Memory.readWord (m : Memory) (a : Nat) : Word := wordOfBytes (m.read a) (m.read (a + 1))

/-- Whether all `len` bytes from `a` on exist: `len` = 0, or `a + len - 1` is at most 4095 (R64 to R67). -/
def inBounds (a len : Nat) : Bool := len == 0 || decide (a + len ≤ memSize)

end Sys2Proof.Machine
end

