-- ==== Sys2Proof/Machine/Ops.lean ====
section
/-! DEFINITION. The named operations on the state that the instruction rules share: register and pc access, the call
stack, the guarded range of memory, taking a fatal error, and Reset, which is the only way back (00_scope.md R9). -/

namespace Sys2Proof.Machine

/-! ## Registers (10_state.md R21 to R25) -/

/-- `V[x]`. -/
def State.readV (s : State) (x : Reg) : Byte := s.v[x]

/-- `V[x] <- b`. -/
def State.writeV (s : State) (x : Reg) (b : Byte) : State := { s with v := s.v.set x b }

/-- `V[x] <- b`, then `V[15] <- flag`: the flag is written last and wins when x = 15 (00_scope.md R10; log entry 12). -/
def State.writeVFlag (s : State) (x : Reg) (b flag : Byte) : State := (s.writeV x b).writeV vf flag

/-- The register file as a whole. -/
def State.setV (s : State) (v : Vector Byte 16) : State := { s with v := v }

/-- `I <- a`. -/
def State.setI (s : State) (a : Word) : State := { s with i := a }

/-- `pc <- a`. -/
def State.setPc (s : State) (a : Word) : State := { s with pc := a }

/-- `MEM` as a whole. -/
def State.setMem (s : State) (m : Memory) : State := { s with mem := m }

/-- `DT <- b`. -/
def State.setDt (s : State) (b : Byte) : State := { s with dt := b }

/-- `ST <- b`. -/
def State.setSt (s : State) (b : Byte) : State := { s with st := b }

/-- `FB` as a whole. -/
def State.setFb (s : State) (fb : Framebuffer) : State := { s with fb := fb }

/-- The advance of pc past the instruction's two bytes (40_execution_cycle.md R122). -/
def State.advance (s : State) : State := s.setPc (s.pc + 2)

/-- The address the instruction was fetched from, seen from inside its execution, where pc is already past it (R122). -/
def State.fetchAddr (s : State) : Word := s.pc - 2

/-- `if c: pc <- pc + 2`, a taken or untaken skip (42_conditional_skip.md R154). -/
def State.skipIf (s : State) (c : Bool) : State := if c then s.setPc (s.pc + 2) else s

/-! ## Taking a fatal error, and the only way back (60_exceptions.md R246, R250) -/

/-- `raise E(A, w)`: RUN becomes Halted and FAULT (E, A, w); pc is A again, and every other write of the Step is
discarded because the instruction rules check their errors before their first write (R246). -/
def raise (e : ErrorKind) (a w : Word) (s : State) : Host.Outcome State Fault Refusal :=
  .next { s with pc := a, run := .halted, fault := some { error := e, pc := a, word := w } }

/-- The error of the instruction `i` in execution: A is the address it was fetched from and w its word (log entry 9). -/
def raiseIn (i : Instr) (e : ErrorKind) (s : State) : Host.Outcome State Fault Refusal :=
  raise e s.fetchAddr (encodeWord i) s

/-- Reset: every element at its reset value, CONFIG kept (70_reset_and_hazards.md R270). There is no other return from an
error (R250). The host's own side is not the core's and is kept. -/
def State.resetCore (s : State) : State := { State.reset with config := s.config, host := s.host }

/-! ## The call stack (10_state.md R29) -/

/-- Push, legal only when SP < 16: `STACK[SP] <- a; SP <- SP + 1`; none when the stack is full. -/
def State.push (s : State) (a : Word) : Option State :=
  if h : s.sp.val < 16 then
    some { s with stack := s.stack.set s.sp.val a, sp := ⟨s.sp.val + 1, by omega⟩ }
  else none

/-- Pop, legal only when SP > 0: `SP <- SP - 1; result = STACK[SP]`; none when the stack is empty. -/
def State.pop (s : State) : Option (Word × State) :=
  if h : 0 < s.sp.val then
    some (s.stack[s.sp.val - 1], { s with sp := ⟨s.sp.val - 1, by omega⟩ })
  else none

/-! ## Memory ranges (20_memory.md R67) -/

/-- Runs `k` if the `len` bytes from I on all exist, else raises MemoryOutOfBounds for `i` before anything is touched. -/
def withRange (i : Instr) (len : Nat) (s : State) (k : State) : Host.Outcome State Fault Refusal :=
  if inBounds s.i.toNat len then .next k else raiseIn i .memoryOutOfBounds s

end Sys2Proof.Machine
end

