-- ==== Sys2Proof/Machine/Flags.lean ====
section
/-! DEFINITION. Every value an instruction writes to VF as a side effect (10_state.md R22), computed from the operands
before wrapping, and never from the wrapped result (43_load_arith.md, family text). -/

namespace Sys2Proof.Machine

/-- A flag as the byte VF receives: 1 or 0. -/
def flagByte (c : Bool) : Byte := if c then 1 else 0

/-- Carry: the mathematical sum exceeds 255 (R166). -/
def carryFlag (a b : Byte) : Byte := flagByte (decide (a.toNat + b.toNat > 255))

/-- No borrow: minuend at least subtrahend (R167, R168). -/
def noBorrowFlag (minuend subtrahend : Byte) : Byte := flagByte (decide (minuend.toNat ≥ subtrahend.toNat))

/-- The bit a right shift by one drops, bit 0 (44_shift.md R180). -/
def shrFlag (src : Byte) : Byte := flagByte (src.getLsbD 0)

/-- The bit a left shift by one drops, bit 7 (44_shift.md R181). -/
def shlFlag (src : Byte) : Byte := flagByte (src.getLsbD 7)

/-- Collision: some pixel went from 1 to 0 (47_display.md R211). -/
def collisionFlag (c : Bool) : Byte := flagByte c

end Sys2Proof.Machine
end

