-- ==== Sys2Proof/Machine/Operands.lean ====
section
/-! DEFINITION. The operand forms: immediates widened, the shift source, the key a register names, the sprite origin, the
glyph address, the BCD digits, and the advance of I (30_encoding.md R93; 44_shift.md R182; 46_memory_index.md R197, R198,
R201; 47_display.md R211; 48_keyboard.md R220). -/

namespace Sys2Proof.Machine

/-- `zext_16(nnn)` (30_encoding.md R93). -/
def zextAddr (nnn : Addr12) : Word := nnn.zeroExtend 16

/-- `zext_16(b)`. -/
def zextByte (b : Byte) : Word := b.zeroExtend 16

/-- The value a shift reads: V[y] if SHIFT_SOURCE is legacy, V[x] if it is modern (44_shift.md R182). -/
def State.shiftSource (s : State) (x y : Reg) : Byte :=
  match s.config.shiftSource with
  | .legacy => s.readV y
  | .modern => s.readV x

/-- Whether the key whose code is in V[x] is pressed; a code above 15 is no key and counts as not pressed
(48_keyboard.md R220; log entry 14). -/
def State.keyPressed (s : State) (x : Reg) : Bool :=
  if h : (s.readV x).toNat < 16 then s.host.inputs.keysDown[(s.readV x).toNat] else false

/-- The address of the glyph for the low nibble of a byte, 5 bytes a glyph from address 0 (46_memory_index.md R197). -/
def glyphAddr (b : Byte) : Word := zextByte (b &&& 0x0F) * 5

/-- Hundreds, tens and ones digit, each a whole byte (46_memory_index.md R198). -/
def bcdDigits (b : Byte) : List Byte :=
  [BitVec.ofNat 8 (b.toNat / 100), BitVec.ofNat 8 (b.toNat / 10 % 10), BitVec.ofNat 8 (b.toNat % 10)]

/-- How many bytes the bulk store and load move for operand x: registers V0 to Vx inclusive (46_memory_index.md R199). -/
def bulkCount (x : Reg) : Nat := x.val + 1

/-- I after a bulk store or load: advanced by the bytes moved if INDEX_ADVANCE is legacy, else as it was
(46_memory_index.md R201; log entry 15). -/
def State.advancedI (s : State) (x : Reg) : Word :=
  match s.config.indexAdvance with
  | .legacy => s.i + BitVec.ofNat 16 (bulkCount x)
  | .modern => s.i

/-- The origin column of a sprite, V[x] mod 64 (47_display.md R211). -/
def State.originCol (s : State) (x : Reg) : Nat := (s.readV x).toNat % 64

/-- The origin row of a sprite, V[y] mod 32 (47_display.md R211). -/
def State.originRow (s : State) (y : Reg) : Nat := (s.readV y).toNat % 32

end Sys2Proof.Machine
end

