-- ==== Sys2Proof/Machine/Control.lean ====
section
/-! DEFINITION. Control flow: RET, SYS, JP, CALL, JP V0 (41_control_flow.md R140 to R144). In every meaning of the model
pc already holds the address of the following instruction (40_execution_cycle.md R122). -/

namespace Sys2Proof.Machine

/-- RET (R142): StackUnderflow when SP = 0, else pop into pc. -/
def execRet (s : State) : Host.Outcome State Fault Refusal :=
  match s.pop with
  | none => raiseIn .ret .stackUnderflow s
  | some (a, t) => .next (t.setPc a)

/-- SYS addr (R144): always UnsupportedOpcode. -/
def execSys (nnn : Addr12) (s : State) : Host.Outcome State Fault Refusal :=
  raiseIn (.sys nnn) .unsupportedOpcode s

/-- JP addr (R140). -/
def execJp (nnn : Addr12) (s : State) : Host.Outcome State Fault Refusal :=
  .next (s.setPc (zextAddr nnn))

/-- CALL addr (R141): StackOverflow when SP = 16, else push the advanced pc and jump. -/
def execCall (nnn : Addr12) (s : State) : Host.Outcome State Fault Refusal :=
  match s.push s.pc with
  | none => raiseIn (.call nnn) .stackOverflow s
  | some t => .next (t.setPc (zextAddr nnn))

/-- JP V0,addr (R143): the sum is not reduced modulo 4096. -/
def execJpV0 (nnn : Addr12) (s : State) : Host.Outcome State Fault Refusal :=
  .next (s.setPc (zextAddr nnn + zextByte (s.readV 0)))

end Sys2Proof.Machine
end

