-- ==== Sys2Proof/Machine/Display.lean ====
section
/-! DEFINITION. Display: CLS and DRW (47_display.md R210, R211), with the drawing loop pixel by pixel as the rule
writes it. A drawing is the pair of a framebuffer and the collision so far. -/

namespace Sys2Proof.Machine

/-- The framebuffer with every pixel 0 (R210). -/
def Framebuffer.blank : Framebuffer := Vector.replicate 32 (Vector.replicate 64 false)

/-- `FB[r][c]`; outside the grid there is no pixel, read as unset. -/
def Framebuffer.pixel (fb : Framebuffer) (r c : Nat) : Bool :=
  if h : r < 32 ∧ c < 64 then (fb[r]'h.1)[c]'h.2 else false

/-- `FB[r][c] <- b` inside the grid. -/
def Framebuffer.setPixel (fb : Framebuffer) (r c : Nat) (b : Bool) : Framebuffer :=
  if h : r < 32 ∧ c < 64 then fb.set r ((fb[r]'h.1).set c b h.2) h.1 else fb

/-- One sprite bit at row r, column c: clipped outside the grid; a 1 bit flips the pixel, and a set pixel makes a
collision (R211). -/
def plotBit (d : Framebuffer × Bool) (r c : Nat) (bit : Bool) : Framebuffer × Bool :=
  if bit && decide (r < 32) && decide (c < 64) then
    (d.1.setPixel r c (!d.1.pixel r c), d.2 || d.1.pixel r c)
  else d

/-- One sprite row: the columns from `c` on, leftmost pixel bit 7 (R211; log entry 13). -/
def plotRow (d : Framebuffer × Bool) (r x0 : Nat) (b : Byte) (c : Nat) : Nat → Framebuffer × Bool
  | 0 => d
  | left + 1 => plotRow (plotBit d r (x0 + c) (b.getLsbD (7 - c))) r x0 b (c + 1) left

/-- The rows of a sprite, top to bottom, the first at row r (R211). -/
def plotSprite (d : Framebuffer × Bool) (r x0 : Nat) : List Byte → Framebuffer × Bool
  | [] => d
  | b :: bs => plotSprite (plotRow d r x0 b 0 8) (r + 1) x0 bs

/-- The drawing of DRW Vx,Vy,n: the n bytes from I on, at the origin V[x], V[y] (R211). -/
def State.drawn (s : State) (x y : Reg) (n : Nibble) : Framebuffer × Bool :=
  plotSprite (s.fb, false) (s.originRow y) (s.originCol x) (s.mem.readBytes s.i.toNat n.toNat)

/-- CLS (R210). -/
def execCls (s : State) : Host.Outcome State Fault Refusal :=
  .next (s.setFb Framebuffer.blank)

/-- DRW Vx,Vy,n (R211): VF is the collision, also when nothing is drawn. -/
def execDrw (x y : Reg) (n : Nibble) (s : State) : Host.Outcome State Fault Refusal :=
  withRange (.drw x y n) n.toNat s
    ((s.setFb (s.drawn x y n).1).writeV vf (collisionFlag (s.drawn x y n).2))

end Sys2Proof.Machine
end

