-- ==== Sys2Proof/Machine/Keyboard.lean ====
section
/-! DEFINITION. Keyboard: SKP, SKNP, LD Vx,K (48_keyboard.md R220 to R222), and the delivery of a key to a core that
waits for one (40_execution_cycle.md R125). -/

namespace Sys2Proof.Machine

/-- SKP Vx (R220). -/
def execSkp (x : Reg) (s : State) : Host.Outcome State Fault Refusal :=
  .next (s.skipIf (s.keyPressed x))

/-- SKNP Vx (R221). -/
def execSknp (x : Reg) (s : State) : Host.Outcome State Fault Refusal :=
  .next (s.skipIf (!s.keyPressed x))

/-- LD Vx,K (R222): always suspends; V[x] is written when a key is delivered. -/
def execLdVxK (x : Reg) (s : State) : Host.Outcome State Fault Refusal :=
  .next { s with run := .awaitingKey, waitReg := x }

/-- A Step in AwaitingKey: with a key event, V[WAIT_REG] receives its code and the core runs again; without one, nothing
changes (40_execution_cycle.md R125). -/
def State.pollKey (s : State) : State :=
  match s.host.inputs.keyEvent with
  | some k => { s.writeV s.waitReg (BitVec.ofNat 8 k.val) with run := .running }
  | none => s

end Sys2Proof.Machine
end

