-- ==== Sys2Proof/Machine/MemoryIndex.lean ====
section
/-! DEFINITION. Address register and memory (46_memory_index.md R195 to R201). -/

namespace Sys2Proof.Machine

/-- LD I,addr (R195). -/
def execLdI (nnn : Addr12) (s : State) : Host.Outcome State Fault Refusal :=
  .next (s.setI (zextAddr nnn))

/-- ADD I,Vx (R196): modulo 65536, no flag and no error. -/
def execAddI (x : Reg) (s : State) : Host.Outcome State Fault Refusal :=
  .next (s.setI (s.i + zextByte (s.readV x)))

/-- LD F,Vx (R197). -/
def execLdF (x : Reg) (s : State) : Host.Outcome State Fault Refusal :=
  .next (s.setI (glyphAddr (s.readV x)))

/-- LD B,Vx (R198): three digits at I, I + 1, I + 2; I itself is kept. -/
def execLdB (x : Reg) (s : State) : Host.Outcome State Fault Refusal :=
  withRange (.ldB x) 3 s (s.setMem (s.mem.storeBytes s.i.toNat (bcdDigits (s.readV x))))

/-- LD [I],Vx (R199): V0 to Vx at I to I + x; I advances or not by CONFIG (R201). -/
def execStoreRegs (x : Reg) (s : State) : Host.Outcome State Fault Refusal :=
  withRange (.storeRegs x) (bulkCount x) s
    ((s.setMem (s.mem.storeBytes s.i.toNat (s.v.toList.take (bulkCount x)))).setI (s.advancedI x))

/-- V0 to Vx loaded from the bytes at I to I + x, the other registers kept (R200). -/
def State.loadedRegs (s : State) (x : Reg) : Vector Byte 16 :=
  Vector.ofFn fun k => if k ≤ x then s.mem.read (s.i.toNat + k.val) else s.readV k

/-- LD Vx,[I] (R200); I advances or not by CONFIG (R201). -/
def execLoadRegs (x : Reg) (s : State) : Host.Outcome State Fault Refusal :=
  withRange (.loadRegs x) (bulkCount x) s ((s.setV (s.loadedRegs x)).setI (s.advancedI x))

end Sys2Proof.Machine
end

