-- ==== Sys2Proof/Machine/Random.lean ====
section
/-! DEFINITION. RND (45_random.md R190): the byte the host supplies to this Step, masked (log entries 5, 22). -/

namespace Sys2Proof.Machine

/-- RND Vx,byte (R190). -/
def execRnd (x : Reg) (kk : Byte) (s : State) : Host.Outcome State Fault Refusal :=
  .next (s.writeV x (s.host.inputs.randByte &&& kk))

end Sys2Proof.Machine
end

