-- ==== Sys2Proof/Machine/Shift.lean ====
section
/-! DEFINITION. Shifts by one bit (44_shift.md R180 to R182); the source is V[y] or V[x] by CONFIG. -/

namespace Sys2Proof.Machine

/-- SHR Vx,Vy (R180): logical, VF = bit 0 of the source. -/
def execShr (x y : Reg) (s : State) : Host.Outcome State Fault Refusal :=
  .next (s.writeVFlag x (s.shiftSource x y >>> 1) (shrFlag (s.shiftSource x y)))

/-- SHL Vx,Vy (R181): truncated to 8 bits, VF = bit 7 of the source. -/
def execShl (x y : Reg) (s : State) : Host.Outcome State Fault Refusal :=
  .next (s.writeVFlag x (s.shiftSource x y <<< 1) (shlFlag (s.shiftSource x y)))

end Sys2Proof.Machine
end

