-- ==== Sys2Proof/Machine/HostOps.lean ====
section
/-! DEFINITION. The host operations other than Step: Tick (49_timers.md R233) and LoadRom (40_execution_cycle.md R131,
60_exceptions.md R247); Reset is `State.resetCore` in Machine/Ops.lean. -/

namespace Sys2Proof.Machine

/-- A timer after one tick: one less, never below 0 (R233). -/
def tickTimer (b : Byte) : Byte := if b = 0 then 0 else b - 1

/-- Tick (R233): both timers, each on its own; nothing while Halted. -/
def State.tick (s : State) : State :=
  if s.run = .halted then s else { s with dt := tickTimer s.dt, st := tickTimer s.st }

/-- ROM_MAX, the largest ROM (00_scope.md R5): 3584 bytes. -/
def romMax : Nat := memSize - romBase

/-- LoadRom (R131): RomTooLarge is answered to the host and changes nothing (R247); a Halted core is left as it is;
otherwise the bytes go to 0x200 on and nothing else changes. -/
def State.loadRom (s : State) (rom : List Byte) : Except LoadError State :=
  if rom.length > romMax then .error .romTooLarge
  else .ok (if s.run = .halted then s else s.setMem (s.mem.storeBytes romBase rom))

/-- The state after a LoadRom, whatever it answered (log entry 16). -/
def State.afterLoadRom (s : State) (rom : List Byte) : State :=
  match s.loadRom rom with
  | .ok t => t
  | .error _ => s

end Sys2Proof.Machine
end

