-- ==== Sys2Proof/Machine/Cycle.lean ====
section
/-! DEFINITION. The engine: one Step chosen by RUN (40_execution_cycle.md R120 to R126), the host's next operation
(R132), and placing an instruction where the next Step fetches it. -/

namespace Sys2Proof.Machine

/-- The instruction word at pc, as memory is now (R121, 20_memory.md R76). -/
def State.fetchedWord (s : State) : Word := s.mem.readWord s.pc.toNat

/-- One instruction: fetch, advance pc, decode, execute (R121 to R123), with the errors in the order of
60_exceptions.md R249. The word recorded with a fetch error is a free value (log entry 8). -/
def runInstruction (s : State) : Host.Outcome State Fault Refusal :=
  if inBounds s.pc.toNat 2 then
    match decodeWord s.fetchedWord with
    | .ok i => exec i s.advance
    | .error _ => raise .unknownOpcode s.pc s.fetchedWord s
  else raise .memoryOutOfBounds s.pc (Config.unspecifiedWord s.host.opCount) s

/-- One Step, by RUN alone (R120): an instruction, a key poll (R125), or nothing (R126). -/
def runStep (s : State) : Host.Outcome State Fault Refusal :=
  match s.run with
  | .running => runInstruction s
  | .awaitingKey => .next s.pollKey
  | .halted => .next s

/-- The host's next operation (R132): the head of the agenda, or a free one when the agenda is empty (log entry 6). -/
def State.nextOp (s : State) : HostOp :=
  match s.host.agenda with
  | [] => Config.hostOp s.host.opCount
  | op :: _ => op

/-- An operation begins: it leaves the agenda, and it has a number of its own. -/
def State.beginOp (s : State) : State :=
  { s with host := { s.host with agenda := s.host.agenda.tail, opCount := s.host.opCount + 1 } }

/-- The inputs of the Step that begins (log entry 5). -/
def State.withInputs (s : State) (inputs : StepInputs) : State := { s with host := { s.host with inputs := inputs } }

/-- One host operation on the core (R132). -/
def perform (op : HostOp) (s : State) : Host.Outcome State Fault Refusal :=
  match op with
  | .step inputs => runStep (s.withInputs inputs)
  | .tick => .next s.tick
  | .loadRom rom => .next (s.afterLoadRom rom)
  | .reset => .next s.resetCore

/-- The host's move: its next operation, whichever it is. A Tick can come between any two Steps, and is never part of
one (49_timers.md R234). -/
def hostMove (s : State) : Host.Outcome State Fault Refusal := perform s.nextOp s.beginOp

/-- The agenda from its first Step on; a Step with the inputs `free` when it lists none. -/
def fromFirstStep (free : StepInputs) : List HostOp → List HostOp
  | [] => [.step free]
  | .step inputs :: rest => .step inputs :: rest
  | .tick :: rest | .loadRom _ :: rest | .reset :: rest => fromFirstStep free rest

/-- The state whose next operation is a Step that fetches the word `w`: `w` stands at pc, big-endian (at 0x200 if pc
holds no address an instruction can be fetched from), the core runs, and what the host had lined up before its next
Step is dropped (log entry 20). -/
def State.placeInstruction (s : State) (w : Word) : State :=
  let a := if inBounds s.pc.toNat 2 then s.pc else BitVec.ofNat 16 romBase
  { s with
    pc := a
    mem := s.mem.storeBytes a.toNat [highByte w, lowByte w]
    run := .running
    fault := none
    host := { s.host with agenda := fromFirstStep (Config.stepInputs s.host.opCount) s.host.agenda } }

end Sys2Proof.Machine
end

