-- ==== Sys2Proof/Safety.lean ====
section
/-! DEFINITION. What counts as a legal state and a safe run, in the words claims use (10_state.md R26 to R29, R35;
40_execution_cycle.md R128; 60_exceptions.md R251; 70_reset_and_hazards.md R273). -/

namespace Sys2Proof.Machine

/-- The largest value any step can leave in pc (10_state.md R27). -/
def pcMax : Nat := 0x10FE

/-- A legal state: MEM in canonical form, pc in its range (R27), every live stack entry a return address, hence at most
4096 (R27, R28), and FAULT non-empty exactly when Halted (10_state.md R35, 60_exceptions.md R251). -/
structure Legal (s : State) : Prop where
  mem : s.mem.wf = true
  pc : s.pc.toNat ≤ pcMax
  stack : ∀ k : Fin 16, k.val < s.sp.val → s.stack[k].toNat ≤ memSize
  fault : s.run = .halted ↔ s.fault.isSome = true

/-- A safe state: no fatal error has occurred (10_state.md R33, 60_exceptions.md R251). -/
def Safe (s : State) : Prop := s.run ≠ .halted ∧ s.fault = none

/-- A launch state of a program: Reset, then LoadRom(rom) succeeded (70_reset_and_hazards.md R273, steps 1 and 2), for
any CONFIG and whatever the host does next. -/
def Launched (rom : List Byte) (s : State) : Prop := s.resetCore.loadRom rom = .ok s

/-- The host's cadence after the launch: Steps with Ticks interleaved, in any order (70_reset_and_hazards.md R273,
step 3; 49_timers.md R234). -/
def Cadence (ops : List HostOp) : Prop := ∀ op ∈ ops, op = .tick ∨ ∃ inputs, op = .step inputs

/-- A conventional end of a run: Running, and the instruction at pc is a JP to pc (40_execution_cycle.md R128, which
leaves the definition to the model). -/
def AtSelfJump (s : State) : Prop :=
  s.run = .running ∧ inBounds s.pc.toNat 2 = true ∧
    ∃ nnn, decodeWord s.fetchedWord = .ok (.jp nnn) ∧ zextAddr nnn = s.pc

/-- A safe run: `k` operations of the host's, whichever they are, every state on the way safe. -/
def SafeRun : Nat → State → Prop
  | 0, s => Safe s
  | k + 1, s => Safe s ∧ ∃ t, step s = .next t ∧ SafeRun k t

/-- A program whose every run is safe: from each launch state, along every finite order of Steps and Ticks. -/
def RunsSafely (rom : List Byte) : Prop :=
  ∀ s, Launched rom s → Cadence s.host.agenda → SafeRun s.host.agenda.length s

end Sys2Proof.Machine
end

