-- ==== Sys2Proof/Certificates/Slice0/Obligations.lean ====
section
/-! DEFINITION. The statements about the model, in the order of spec/: reset, encoding, the cycle, the instructions, the
host's operations, the whole machine. In every statement about `exec`, pc already holds the address of the following
instruction (40_execution_cycle.md R122), so "pc as before" means the normal advance and `pc - 2` is the address the
instruction was fetched from. -/

namespace Sys2Proof.Claims

open Sys2Proof.Machine

/-! ## Words for frames -/

/-- Every general register outside `but` reads as before. -/
def KeepsV (but : List Reg) (s t : State) : Prop := ∀ r, r ∉ but → t.readV r = s.readV r

/-- Every byte of memory reads as before. -/
def KeepsMem (s t : State) : Prop := ∀ a, t.mem.read a = s.mem.read a

/-- Every byte of memory outside the `len` bytes from `a` on reads as before. -/
def KeepsMemOutside (a len : Nat) (s t : State) : Prop := ∀ b, b < a ∨ a + len ≤ b → t.mem.read b = s.mem.read b

/-- The call stack is unchanged. -/
def KeepsStack (s t : State) : Prop := t.stack = s.stack ∧ t.sp = s.sp

/-- Both timers are unchanged. -/
def KeepsTimers (s t : State) : Prop := t.dt = s.dt ∧ t.st = s.st

/-- Every pixel is unchanged. -/
def KeepsFb (s t : State) : Prop := t.fb = s.fb

/-- RUN, WAIT_REG and FAULT are unchanged. -/
def KeepsRun (s t : State) : Prop := t.run = s.run ∧ t.waitReg = s.waitReg ∧ t.fault = s.fault

/-- CONFIG and the host's own side are unchanged. -/
def KeepsRest (s t : State) : Prop := t.config = s.config ∧ t.host = s.host

/-- Nothing changes but general registers in `but`. -/
def OnlyV (but : List Reg) (s t : State) : Prop :=
  KeepsV but s t ∧ t.i = s.i ∧ t.pc = s.pc ∧ KeepsMem s t ∧ KeepsStack s t ∧ KeepsTimers s t ∧ KeepsFb s t ∧
    KeepsRun s t ∧ KeepsRest s t

/-- Nothing changes but pc. -/
def OnlyPc (s t : State) : Prop :=
  KeepsV [] s t ∧ t.i = s.i ∧ KeepsMem s t ∧ KeepsStack s t ∧ KeepsTimers s t ∧ KeepsFb s t ∧ KeepsRun s t ∧
    KeepsRest s t

/-- Nothing changes but I. -/
def OnlyI (s t : State) : Prop :=
  KeepsV [] s t ∧ t.pc = s.pc ∧ KeepsMem s t ∧ KeepsStack s t ∧ KeepsTimers s t ∧ KeepsFb s t ∧ KeepsRun s t ∧
    KeepsRest s t

/-- Nothing changes but pc and the call stack. -/
def OnlyPcAndStack (s t : State) : Prop :=
  KeepsV [] s t ∧ t.i = s.i ∧ KeepsMem s t ∧ KeepsTimers s t ∧ KeepsFb s t ∧ KeepsRun s t ∧ KeepsRest s t

/-- The fatal error `e` of instruction `i`, taken from `s`: RUN is Halted, FAULT holds the error, the address the
instruction was fetched from and its word, pc is that address again, and nothing else changes. -/
def Raises (i : Instr) (e : ErrorKind) (s t : State) : Prop :=
  t.run = .halted ∧ t.fault = some { error := e, pc := s.pc - 2, word := encodeWord i } ∧ t.pc = s.pc - 2 ∧
    KeepsV [] s t ∧ t.i = s.i ∧ KeepsMem s t ∧ KeepsStack s t ∧ KeepsTimers s t ∧ KeepsFb s t ∧
    t.waitReg = s.waitReg ∧ KeepsRest s t

/-- The core (everything but the host's own side) is unchanged. -/
def SameCore (s t : State) : Prop := { t with host := s.host } = s

/-! ## Words for the host's next operation -/

/-- The next operation is a Step with the inputs `inp`, after which the agenda is `rest`: the agenda's head, or, when the
agenda is empty, whatever the host freely chooses. -/
def NextIsStep (s : State) (inp : StepInputs) (rest : List HostOp) : Prop :=
  s.nextOp = .step inp ∧ rest = s.host.agenda.tail

/-- The next operation is a Step that executes the instruction `i`. -/
def NextExecutes (s : State) (i : Instr) : Prop :=
  (∃ inp rest, NextIsStep s inp rest) ∧ s.run = .running ∧ s.pc.toNat + 1 ≤ 4095 ∧
    decodeWord (s.mem.read s.pc.toNat ++ s.mem.read (s.pc.toNat + 1)) = .ok i

/-- The next operation is `op`. -/
def NextIs (s : State) (op : HostOp) : Prop := s.nextOp = op

/-! ## Words for memory -/

/-- The 80 font bytes, glyph by glyph, from the table of 20_memory.md R62. -/
def glyphRows : List (List Byte) :=
  [[0xF0, 0x90, 0x90, 0x90, 0xF0], [0x20, 0x60, 0x20, 0x20, 0x70], [0xF0, 0x10, 0xF0, 0x80, 0xF0],
   [0xF0, 0x10, 0xF0, 0x10, 0xF0], [0x90, 0x90, 0xF0, 0x10, 0x10], [0xF0, 0x80, 0xF0, 0x10, 0xF0],
   [0xF0, 0x80, 0xF0, 0x90, 0xF0], [0xF0, 0x10, 0x20, 0x40, 0x40]] ++
  [[0xF0, 0x90, 0xF0, 0x90, 0xF0], [0xF0, 0x90, 0xF0, 0x10, 0xF0], [0xF0, 0x90, 0xF0, 0x90, 0x90],
   [0xE0, 0x90, 0xE0, 0x90, 0xE0], [0xF0, 0x80, 0x80, 0x80, 0xF0], [0xE0, 0x90, 0x90, 0x90, 0xE0],
   [0xF0, 0x80, 0xF0, 0x80, 0xF0], [0xF0, 0x80, 0xF0, 0x80, 0x80]]

/-- The value of the byte at `a` once the `len` bytes `f 0`, `f 1`, ... are stored from I on. -/
def byteAfterStore (s : State) (len : Nat) (f : Nat → Nat) (a : Nat) : Nat :=
  if s.i.toNat ≤ a ∧ a < s.i.toNat + len then f (a - s.i.toNat) else (s.mem.read a).toNat

/-! ## Words for the display -/

/-- The sprite of DRW Vx,Vy,n has an unclipped 1 bit on the pixel in row r, column c (47_display.md R211). -/
def spriteBit (s : State) (x y : Reg) (n : Nibble) (r c : Nat) : Bool :=
  let x0 := (s.readV x).toNat % 64
  let y0 := (s.readV y).toNat % 32
  decide (y0 ≤ r ∧ r < y0 + n.toNat ∧ r < 32 ∧ x0 ≤ c ∧ c < x0 + 8 ∧ c < 64) &&
    (s.mem.read (s.i.toNat + (r - y0))).getLsbD (7 - (c - x0))

/-! ## Words for whole-machine rules -/

/-- The general registers an instruction may write: its destination, and VF where it has a flag (10_state.md R22). -/
def destRegs : Instr → List Reg
  | .ldByte x _ | .addByte x _ | .ldReg x _ | .orReg x _ | .andReg x _ | .xorReg x _ | .rnd x _ | .ldVxDt x => [x]
  | .addReg x _ | .subReg x _ | .subnReg x _ | .shr x _ | .shl x _ => [x, vf]
  | .drw _ _ _ => [vf]
  | .loadRegs x => (List.finRange 16).filter (· ≤ x)
  | .cls | .ret | .sys _ | .jp _ | .call _ | .seByte _ _ | .sneByte _ _ | .seReg _ _ | .sneReg _ _ | .ldI _ | .jpV0 _
  | .skp _ | .sknp _ | .ldVxK _ | .ldDtVx _ | .ldStVx _ | .addI _ | .ldF _ | .ldB _ | .storeRegs _ => []

/-- The fatal error an instruction raises in a state, if any (60_exceptions.md R240 to R245). -/
def errorOf (i : Instr) (s : State) : Option ErrorKind :=
  match i with
  | .sys _ => some .unsupportedOpcode
  | .call _ => if s.sp.val = 16 then some .stackOverflow else none
  | .ret => if s.sp.val = 0 then some .stackUnderflow else none
  | .ldB _ => if s.i.toNat + 2 > 4095 then some .memoryOutOfBounds else none
  | .storeRegs x | .loadRegs x => if s.i.toNat + x.val > 4095 then some .memoryOutOfBounds else none
  | .drw _ _ n => if 1 ≤ n.toNat ∧ s.i.toNat + n.toNat - 1 > 4095 then some .memoryOutOfBounds else none
  | .cls | .jp _ | .seByte _ _ | .sneByte _ _ | .seReg _ _ | .ldByte _ _ | .addByte _ _ | .ldReg _ _ | .orReg _ _
  | .andReg _ _ | .xorReg _ _ | .addReg _ _ | .subReg _ _ | .shr _ _ | .subnReg _ _ | .shl _ _ | .sneReg _ _ | .ldI _
  | .jpV0 _ | .rnd _ _ | .skp _ | .sknp _ | .ldVxDt _ | .ldVxK _ | .ldDtVx _ | .ldStVx _ | .addI _ | .ldF _ => none

/-- Two states that agree on everything but the stack entries at index SP and above (10_state.md R28). -/
def SameButDeadStack (s t : State) : Prop :=
  { t with stack := s.stack } = s ∧ ∀ k : Fin 16, k.val < s.sp.val → t.stack[k] = s.stack[k]

/-- `Runs n s t`: n steps lead from s to t. -/
inductive Runs : Nat → State → State → Prop where
  | here {s : State} : Runs 0 s s
  | next {n : Nat} {s t u : State} : step s = .next t → Runs n t u → Runs (n + 1) s u

/-- A run of steps from one state to another in which the call depth is above `d` at every state. -/
inductive StaysAbove (d : Nat) : State → State → Prop where
  | here {s : State} : d < s.sp.val → StaysAbove d s s
  | next {s t u : State} : StaysAbove d s t → step t = .next u → d < u.sp.val → StaysAbove d s u

end Sys2Proof.Claims

open Sys2Proof Sys2Proof.Machine Sys2Proof.Claims

/-! ## Reset (70_reset_and_hazards.md) -/

/-- R270: Reset puts every element at its reset value and keeps CONFIG, from every state; the font is the table of R62, the
glyph of digit d at 5 * d. The values the source does not give are the spec's decision D23, the font bytes its decision D6
(log entries 2, 3). -/
def Obligations.ResetRestoresEveryElement : Prop :=
  ∀ s : State, NextIs s .reset →
    ∃ t, step s = .next t ∧
      (∀ d k, d < 16 → k < 5 → glyphRows[d]?.bind (·[k]?) = some (t.mem.read (5 * d + k))) ∧ (∀ a, 80 ≤ a → t.mem.read a = 0) ∧
      t.pc = 0x200 ∧ (∀ r, t.readV r = 0) ∧ t.i = 0 ∧ t.sp.val = 0 ∧ (∀ k : Fin 16, t.stack[k] = 0) ∧
      t.dt = 0 ∧ t.st = 0 ∧ (∀ r c, t.fb.pixel r c = false) ∧
      t.run = .running ∧ t.waitReg = 0 ∧ t.fault = none ∧
      t.config = s.config ∧
      t.host = { s.host with agenda := s.host.agenda.tail, opCount := s.host.opCount + 1 }

/-- R271, R273: after Reset and then LoadRom of 2 to 3584 bytes the core is launched: Running, FAULT empty, pc = 0x200,
the reserved region above the font zero. Its first instruction word is the program's first two bytes, most significant
first, and if the host's next operation is a Step, that Step is `exec` of the instruction they decode to. -/
def Obligations.EntryPointAfterReset : Prop :=
  ∀ (s t : State) (rom : List Byte) (h : 2 ≤ rom.length), rom.length ≤ 3584 →
    NextIs s .reset → step s = .next t → NextIs t (.loadRom rom) →
    ∃ u, step t = .next u ∧ Launched rom u ∧ u.run = .running ∧ u.fault = none ∧ u.pc = 0x200 ∧
      (∀ a, 0x50 ≤ a → a ≤ 0x1FF → u.mem.read a = 0) ∧
      u.fetchedWord.toNat = rom[0].toNat * 256 + rom[1].toNat ∧
      ∀ inp i, NextIs u (.step inp) → decodeWord (rom[0] ++ rom[1]) = .ok i →
        step u = exec i { u with
          pc := 0x202
          host := { agenda := u.host.agenda.tail, inputs := inp, opCount := u.host.opCount + 1 } }

/-- The state after Reset is legal: canonical memory, pc in range, no live stack entry, no fault. That memory has a
canonical form is the model's own choice (log entry 11), no rule of the spec. -/
def Obligations.ResetStateIsLegal : Prop := Legal State.reset

/-! ## Encoding (30_encoding.md) -/

/-- For every well-formed instruction, with every operand at every value, decoding its word gives it back, and so does
decoding its two bytes in front of anything. The patterns are the spec's decisions D2, D3 (log entry 1). -/
def Obligations.DecodeOfEncodeIsTheInstruction : Prop :=
  ∀ i : Instr, i.wellFormed = true →
    decodeWord (encodeWord i) = .ok i ∧ ∀ rest, decode (encode i ++ rest) = .ok (i, rest)

/-- Every field of a decoded word is fixed or used (R98): encoding what a word decodes to gives the word back, and what
decodes is well formed. Exact matching is the spec's decision D4 (log entry 1). -/
def Obligations.EncodeOfDecodeIsTheWord : Prop :=
  ∀ (w : Word) (i : Instr), decodeWord w = .ok i → encodeWord i = w ∧ i.wellFormed = true

/-- R96: the Unknown words are exactly 5XYn and 9XYn with n not 0, 8XYn with n in 8, 9, A, B, C, D, F, EXkk with kk not
9E or A1, and FXkk with kk none of the nine function bytes; every other word decodes to an instruction. Exact matching is
the spec's decision D4 (log entry 1). -/
def Obligations.UnknownWordsAreExactlyThese : Prop :=
  ∀ w : Word,
    let op := w.toNat / 4096
    let kk := w.toNat % 256
    let n := w.toNat % 16
    (decodeWord w = .error (.unknownOpcode w) ↔
      (op = 5 ∧ n ≠ 0) ∨ (op = 9 ∧ n ≠ 0) ∨
      (op = 8 ∧ n ∈ [8, 9, 0xA, 0xB, 0xC, 0xD, 0xF]) ∨
      (op = 0xE ∧ kk ≠ 0x9E ∧ kk ≠ 0xA1) ∨
      (op = 0xF ∧ kk ∉ [0x07, 0x0A, 0x15, 0x18, 0x1E, 0x29, 0x33, 0x55, 0x65])) ∧
    (decodeWord w ≠ .error (.unknownOpcode w) → ∃ i, decodeWord w = .ok i)

/-- Words written out from the patterns of R94, one for each of its 35 rows, decode to the instruction they stand for.
The patterns are the spec's decision D2 (log entry 1). -/
def Obligations.WordsOfThePatternsDecode : Prop :=
  (decodeWord 0x00E0 = .ok .cls ∧ decodeWord 0x00EE = .ok .ret ∧ decodeWord 0x0123 = .ok (.sys 0x123) ∧
    decodeWord 0x1234 = .ok (.jp 0x234) ∧ decodeWord 0x2345 = .ok (.call 0x345) ∧
    decodeWord 0x332A = .ok (.seByte 3 0x2A) ∧ decodeWord 0x4B43 = .ok (.sneByte 11 0x43) ∧
    decodeWord 0x5120 = .ok (.seReg 1 2) ∧ decodeWord 0x6A7F = .ok (.ldByte 10 0x7F) ∧
    decodeWord 0x7C05 = .ok (.addByte 12 0x05) ∧ decodeWord 0x9EF0 = .ok (.sneReg 14 15) ∧
    decodeWord 0xA2F0 = .ok (.ldI 0x2F0) ∧ decodeWord 0xB30D = .ok (.jpV0 0x30D) ∧
    decodeWord 0xC30F = .ok (.rnd 3 0x0F) ∧ decodeWord 0xD125 = .ok (.drw 1 2 5)) ∧
  (decodeWord 0x8120 = .ok (.ldReg 1 2) ∧ decodeWord 0x8121 = .ok (.orReg 1 2) ∧
    decodeWord 0x8122 = .ok (.andReg 1 2) ∧ decodeWord 0x8123 = .ok (.xorReg 1 2) ∧
    decodeWord 0x8124 = .ok (.addReg 1 2) ∧ decodeWord 0x8125 = .ok (.subReg 1 2) ∧
    decodeWord 0x8126 = .ok (.shr 1 2) ∧ decodeWord 0x8127 = .ok (.subnReg 1 2) ∧
    decodeWord 0x812E = .ok (.shl 1 2)) ∧
  (decodeWord 0xE49E = .ok (.skp 4) ∧ decodeWord 0xE4A1 = .ok (.sknp 4) ∧
    decodeWord 0xF207 = .ok (.ldVxDt 2) ∧ decodeWord 0xF30A = .ok (.ldVxK 3) ∧
    decodeWord 0xF215 = .ok (.ldDtVx 2) ∧ decodeWord 0xF218 = .ok (.ldStVx 2) ∧
    decodeWord 0xF11E = .ok (.addI 1) ∧ decodeWord 0xF129 = .ok (.ldF 1) ∧ decodeWord 0xF333 = .ok (.ldB 3) ∧
    decodeWord 0xF255 = .ok (.storeRegs 2) ∧ decodeWord 0xF265 = .ok (.loadRegs 2))

/-! ## The cycle (40_execution_cycle.md) -/

/-- R121 to R123: when the next operation is a Step, the core runs and the two bytes at pc, most significant first, decode
to `i`, the step is `exec i` at the state in which pc is advanced by 2 and the Step's inputs are in place. -/
def Obligations.StepRunsTheDecodedInstruction : Prop :=
  ∀ (s : State) (i : Instr) (inp : StepInputs) (rest : List HostOp),
    NextIsStep s inp rest → s.run = .running → s.pc.toNat + 1 ≤ 4095 →
    decode [s.mem.read s.pc.toNat, s.mem.read (s.pc.toNat + 1)] = .ok (i, []) →
    step s = exec i { s with
      pc := s.pc + 2
      host := { agenda := rest, inputs := inp, opCount := s.host.opCount + 1 } }

/-- R121, R245: a fetch from an address above 4094 raises MemoryOutOfBounds with A = pc and some word the spec leaves
unspecified (log entry 8), and changes nothing else of the core: the spec's decision D12 (log entry 18). -/
def Obligations.FetchOutOfRangeHalts : Prop :=
  ∀ (s : State) (inp : StepInputs) (rest : List HostOp),
    NextIsStep s inp rest → s.run = .running → s.pc.toNat + 1 > 4095 →
    ∃ t w, step s = .next t ∧
      SameCore { s with run := .halted, fault := some { error := .memoryOutOfBounds, pc := s.pc, word := w } } t

/-- R244: a fetched word with no decode match raises UnknownOpcode with A = pc and the word, and changes nothing else of
the core; it is never treated as a no-op. The record's pc and no partial effect are the spec's decision D11
(log entry 18). -/
def Obligations.UnknownOpcodeHalts : Prop :=
  ∀ (s : State) (inp : StepInputs) (rest : List HostOp) (w : Word),
    NextIsStep s inp rest → s.run = .running → s.pc.toNat + 1 ≤ 4095 →
    w = s.mem.read s.pc.toNat ++ s.mem.read (s.pc.toNat + 1) → decodeWord w = .error (.unknownOpcode w) →
    ∃ t, step s = .next t ∧
      SameCore { s with run := .halted, fault := some { error := .unknownOpcode, pc := s.pc, word := w } } t

/-- R125: a Step of a core that waits for a key delivers the key the host supplies to V[WAIT_REG] and sets the core
running, or without a key changes nothing; pc and memory are never touched. The rendering is the spec's decision D19 (log
entry 14). -/
def Obligations.KeyPollDeliversOrWaits : Prop :=
  ∀ (s : State) (inp : StepInputs) (rest : List HostOp),
    NextIsStep s inp rest → s.run = .awaitingKey →
    ∃ t, step s = .next t ∧
      (inp.keyEvent = none → SameCore s t) ∧
      (∀ k : Key, inp.keyEvent = some k →
        t.run = .running ∧ (t.readV s.waitReg).toNat = k.val ∧ KeepsV [s.waitReg] s t ∧ t.i = s.i ∧ t.pc = s.pc ∧
          KeepsMem s t ∧ KeepsStack s t ∧ KeepsTimers s t ∧ KeepsFb s t ∧ t.waitReg = s.waitReg ∧ t.fault = s.fault ∧
          t.config = s.config)

/-- R126, R250, R251: nothing but Reset changes a Halted core: not a Step, not a Tick, not a LoadRom (the spec's decision
D22, log entry 23). -/
def Obligations.HaltedCoreChangesOnlyByReset : Prop :=
  ∀ s t : State, s.run = .halted → ¬ NextIs s .reset → step s = .next t → SameCore s t

/-- R240: no operation of the host's is without a next state, whatever the state: every error of the spec is a state the
spec describes (R246). That an error is a next state, and nothing ever a fault or a refusal, is the model's own choice
(log entry 7); R240 only lists the errors. -/
def Obligations.EveryStepAnswersANextState : Prop := ∀ s : State, ∃ t, step s = .next t

/-- R33: AwaitingKey is entered only by LD Vx,K, which latches its register, and left only by a key event or Reset. The
latch (R34, R222) is the spec's decision D19 (log entry 14). -/
def Obligations.AwaitingKeyEnteredAndLeft : Prop :=
  ∀ s t : State, step s = .next t →
    (t.run = .awaitingKey → s.run = .awaitingKey ∨ ∃ x, NextExecutes s (.ldVxK x) ∧ t.waitReg = x) ∧
    (s.run = .awaitingKey → t.run ≠ .awaitingKey →
      NextIs s .reset ∨ ∃ inp rest k, NextIsStep s inp rest ∧ inp.keyEvent = some k)

/-! ## Control flow (41_control_flow.md) -/

/-- R140: JP addr sets pc to the zero-extended address and changes nothing else. -/
def Obligations.JpSetsPc : Prop :=
  ∀ (nnn : Addr12) (s : State),
    ∃ t, exec (.jp nnn) s = .next t ∧ t.pc.toNat = nnn.toNat ∧ OnlyPc s t

/-- R143: JP V0,addr sets pc to addr + V0, not reduced modulo 4096, and changes nothing else. -/
def Obligations.JpV0AddsV0 : Prop :=
  ∀ (nnn : Addr12) (s : State),
    ∃ t, exec (.jpV0 nnn) s = .next t ∧ t.pc.toNat = nnn.toNat + (s.readV 0).toNat ∧ OnlyPc s t

/-- R141: with room on the stack CALL pushes the advanced pc, increments SP and jumps; with SP = 16 it raises
StackOverflow and pushes nothing (no partial effect: the spec's decision D11, log entry 18). -/
def Obligations.CallPushesOrOverflows : Prop :=
  ∀ (nnn : Addr12) (s : State),
    (s.sp.val < 16 → ∃ t, exec (.call nnn) s = .next t ∧
      t.pc.toNat = nnn.toNat ∧ t.sp.val = s.sp.val + 1 ∧
      (∀ k : Fin 16, t.stack[k] = if k.val = s.sp.val then s.pc else s.stack[k]) ∧ OnlyPcAndStack s t) ∧
    (s.sp.val = 16 → ∃ t, exec (.call nnn) s = .next t ∧ Raises (.call nnn) .stackOverflow s t)

/-- R142: with SP > 0 RET decrements SP and takes pc from the top entry, every entry keeping its value (D14, log
entry 21); with SP = 0 it raises StackUnderflow (no partial effect: the spec's decision D11, log entry 18). -/
def Obligations.RetPopsOrUnderflows : Prop :=
  ∀ s : State,
    (0 < s.sp.val → ∃ t, exec .ret s = .next t ∧
      t.sp.val + 1 = s.sp.val ∧ (∀ k : Fin 16, k.val + 1 = s.sp.val → t.pc = s.stack[k]) ∧ t.stack = s.stack ∧
      OnlyPcAndStack s t) ∧
    (s.sp.val = 0 → ∃ t, exec .ret s = .next t ∧ Raises .ret .stackUnderflow s t)

/-- R144: SYS always raises UnsupportedOpcode, and changes nothing else (no partial effect: the spec's decision D11, log
entry 18). -/
def Obligations.SysAlwaysUnsupported : Prop :=
  ∀ (nnn : Addr12) (s : State), ∃ t, exec (.sys nnn) s = .next t ∧ Raises (.sys nnn) .unsupportedOpcode s t

/-- R145: call and return are a stack discipline: after a CALL at depth d, through any steps that stay above depth d, a
RET at depth d + 1 returns to the address after the CALL, at depth d. -/
def Obligations.CallReturnStackDiscipline : Prop :=
  ∀ (nnn : Addr12) (s t u v : State),
    s.sp.val < 16 → exec (.call nnn) s = .next t → StaysAbove s.sp.val t u → u.sp.val = s.sp.val + 1 →
    exec .ret u = .next v → v.pc = s.pc ∧ v.sp = s.sp

/-! ## Conditional skips (42_conditional_skip.md) -/

/-- R150 to R153: each skip adds 2 to the advanced pc exactly when its unsigned comparison holds, and changes nothing
else. -/
def Obligations.SkipsFollowTheirComparison : Prop :=
  ∀ (x y : Reg) (kk : Byte) (s : State),
    (∃ t, exec (.seByte x kk) s = .next t ∧ OnlyPc s t ∧
      t.pc = if (s.readV x).toNat = kk.toNat then s.pc + 2 else s.pc) ∧
    (∃ t, exec (.sneByte x kk) s = .next t ∧ OnlyPc s t ∧
      t.pc = if (s.readV x).toNat ≠ kk.toNat then s.pc + 2 else s.pc) ∧
    (∃ t, exec (.seReg x y) s = .next t ∧ OnlyPc s t ∧
      t.pc = if (s.readV x).toNat = (s.readV y).toNat then s.pc + 2 else s.pc) ∧
    (∃ t, exec (.sneReg x y) s = .next t ∧ OnlyPc s t ∧
      t.pc = if (s.readV x).toNat ≠ (s.readV y).toNat then s.pc + 2 else s.pc)

/-! ## Load and arithmetic (43_load_arith.md) -/

/-- R160 to R162: LD Vx,byte, ADD Vx,byte (modulo 256, no flag) and LD Vx,Vy write V[x] and nothing else. -/
def Obligations.LoadsAndImmediateAdd : Prop :=
  ∀ (x y : Reg) (kk : Byte) (s : State),
    (∃ t, exec (.ldByte x kk) s = .next t ∧ t.readV x = kk ∧ OnlyV [x] s t) ∧
    (∃ t, exec (.addByte x kk) s = .next t ∧
      (t.readV x).toNat = ((s.readV x).toNat + kk.toNat) % 256 ∧ OnlyV [x] s t) ∧
    (∃ t, exec (.ldReg x y) s = .next t ∧ t.readV x = s.readV y ∧ OnlyV [x] s t)

/-- R163 to R165: OR, AND and XOR write V[x] bit by bit and nothing else, VF included. -/
def Obligations.LogicIsBitByBit : Prop :=
  ∀ (x y : Reg) (s : State),
    (∃ t, exec (.orReg x y) s = .next t ∧ OnlyV [x] s t ∧
      ∀ k, k < 8 → (t.readV x).getLsbD k = ((s.readV x).getLsbD k || (s.readV y).getLsbD k)) ∧
    (∃ t, exec (.andReg x y) s = .next t ∧ OnlyV [x] s t ∧
      ∀ k, k < 8 → (t.readV x).getLsbD k = ((s.readV x).getLsbD k && (s.readV y).getLsbD k)) ∧
    (∃ t, exec (.xorReg x y) s = .next t ∧ OnlyV [x] s t ∧
      ∀ k, k < 8 → (t.readV x).getLsbD k = ((s.readV x).getLsbD k ^^ (s.readV y).getLsbD k))

/-- R166 to R168: ADD, SUB and SUBN write V[x] modulo 256 and VF from the comparison before wrapping, and nothing else.
With x = 15 the flag wins, which is the spec's decision D15 (log entry 12). -/
def Obligations.ArithmeticSetsResultAndFlag : Prop :=
  ∀ (x y : Reg) (s : State),
    let a := (s.readV x).toNat
    let b := (s.readV y).toNat
    (∃ t, exec (.addReg x y) s = .next t ∧ OnlyV [x, vf] s t ∧
      (x ≠ vf → (t.readV x).toNat = (a + b) % 256) ∧ (t.readV vf).toNat = if a + b > 255 then 1 else 0) ∧
    (∃ t, exec (.subReg x y) s = .next t ∧ OnlyV [x, vf] s t ∧
      (x ≠ vf → (t.readV x).toNat = if a < b then a + 256 - b else a - b) ∧
      (t.readV vf).toNat = if a ≥ b then 1 else 0) ∧
    (∃ t, exec (.subnReg x y) s = .next t ∧ OnlyV [x, vf] s t ∧
      (x ≠ vf → (t.readV x).toNat = if b < a then b + 256 - a else b - a) ∧
      (t.readV vf).toNat = if b ≥ a then 1 else 0)

/-! ## Shifts (44_shift.md) -/

/-- R180 to R182: SHR and SHL shift V[y] (legacy) or V[x] (modern) by one bit into V[x], VF takes the bit shifted out, and
nothing else changes. With x = 15 the flag wins, which is the spec's decision D15 (log entry 12). -/
def Obligations.ShiftsByConfiguredSource : Prop :=
  ∀ (x y : Reg) (s : State),
    let src := if s.config.shiftSource = .legacy then (s.readV y).toNat else (s.readV x).toNat
    (∃ t, exec (.shr x y) s = .next t ∧ OnlyV [x, vf] s t ∧
      (x ≠ vf → (t.readV x).toNat = src / 2) ∧ (t.readV vf).toNat = src % 2) ∧
    (∃ t, exec (.shl x y) s = .next t ∧ OnlyV [x, vf] s t ∧
      (x ≠ vf → (t.readV x).toNat = src * 2 % 256) ∧ (t.readV vf).toNat = src / 128)

/-! ## Random (45_random.md) -/

/-- R190: RND writes the host's byte AND the mask to V[x] and nothing else; so every bit outside the mask is 0 and the
result is at most the mask. The byte is the input of this Step (log entries 5, 22). -/
def Obligations.RndMasksTheHostsByte : Prop :=
  ∀ (x : Reg) (kk : Byte) (s : State),
    ∃ t, exec (.rnd x kk) s = .next t ∧ OnlyV [x] s t ∧
      (∀ k, k < 8 → (t.readV x).getLsbD k = (s.host.inputs.randByte.getLsbD k && kk.getLsbD k)) ∧
      (t.readV x).toNat ≤ kk.toNat

/-! ## Address register and memory (46_memory_index.md, 20_memory.md) -/

/-- R195 to R197: LD I,addr, ADD I,Vx (modulo 65536, no flag) and LD F,Vx (five times the low nibble) write I and nothing
else. -/
def Obligations.AddressRegisterWrites : Prop :=
  ∀ (nnn : Addr12) (x : Reg) (s : State),
    (∃ t, exec (.ldI nnn) s = .next t ∧ t.i.toNat = nnn.toNat ∧ OnlyI s t) ∧
    (∃ t, exec (.addI x) s = .next t ∧ t.i.toNat = (s.i.toNat + (s.readV x).toNat) % 65536 ∧ OnlyI s t) ∧
    (∃ t, exec (.ldF x) s = .next t ∧ t.i.toNat = (s.readV x).toNat % 16 * 5 ∧ OnlyI s t)

/-- R198: with I at most 4093, LD B,Vx stores the hundreds, tens and ones digit at I, I + 1, I + 2 and changes nothing
else, I included. The premise on memory is the model's own invariant (log entry 11). -/
def Obligations.BcdStoresThreeDigits : Prop :=
  ∀ (x : Reg) (s : State), s.mem.wf = true → s.i.toNat ≤ 4093 →
    ∃ t, exec (.ldB x) s = .next t ∧
      (t.mem.read s.i.toNat).toNat = (s.readV x).toNat / 100 ∧
      (t.mem.read (s.i.toNat + 1)).toNat = (s.readV x).toNat / 10 % 10 ∧
      (t.mem.read (s.i.toNat + 2)).toNat = (s.readV x).toNat % 10 ∧
      KeepsMemOutside s.i.toNat 3 s t ∧ KeepsV [] s t ∧ t.i = s.i ∧ t.pc = s.pc ∧ KeepsStack s t ∧ KeepsTimers s t ∧
      KeepsFb s t ∧ KeepsRun s t ∧ KeepsRest s t

/-- R199, R201: with I + x at most 4095, LD [I],Vx stores V0 to Vx at I to I + x and changes nothing else, except that I
moves past the last byte if INDEX_ADVANCE is legacy (by x + 1: the spec's decision D16, log entry 15). The premise on
memory is the model's own invariant (log entry 11). -/
def Obligations.BulkStoreWritesRegisters : Prop :=
  ∀ (x : Reg) (s : State), s.mem.wf = true → s.i.toNat + x.val ≤ 4095 →
    ∃ t, exec (.storeRegs x) s = .next t ∧
      (∀ k : Reg, k ≤ x → t.mem.read (s.i.toNat + k.val) = s.readV k) ∧
      KeepsMemOutside s.i.toNat (x.val + 1) s t ∧
      t.i.toNat = (if s.config.indexAdvance = .legacy then s.i.toNat + x.val + 1 else s.i.toNat) ∧
      KeepsV [] s t ∧ t.pc = s.pc ∧ KeepsStack s t ∧ KeepsTimers s t ∧ KeepsFb s t ∧ KeepsRun s t ∧ KeepsRest s t

/-- R200, R201: with I + x at most 4095, LD Vx,[I] loads V0 to Vx from the bytes at I to I + x and changes nothing else,
except that I moves past the last byte if INDEX_ADVANCE is legacy (by x + 1: the spec's decision D16, log entry 15). -/
def Obligations.BulkLoadReadsRegisters : Prop :=
  ∀ (x : Reg) (s : State), s.i.toNat + x.val ≤ 4095 →
    ∃ t, exec (.loadRegs x) s = .next t ∧
      (∀ k : Reg, t.readV k = if k ≤ x then s.mem.read (s.i.toNat + k.val) else s.readV k) ∧
      t.i.toNat = (if s.config.indexAdvance = .legacy then s.i.toNat + x.val + 1 else s.i.toNat) ∧
      KeepsMem s t ∧ t.pc = s.pc ∧ KeepsStack s t ∧ KeepsTimers s t ∧ KeepsFb s t ∧ KeepsRun s t ∧ KeepsRest s t

/-- R76: the bytes stored by LD [I],Vx and by LD B,Vx are seen by the very next fetch: each byte of the word at pc
afterwards is the byte stored there (register V0 to Vx, or the hundreds, tens, ones digit), or what memory held before.
The premise on memory is the model's own invariant (log entry 11). -/
def Obligations.StoreIsSeenByTheNextFetch : Prop :=
  ∀ (x : Reg) (s : State), s.mem.wf = true →
    (s.i.toNat + x.val ≤ 4095 → ∃ t, exec (.storeRegs x) s = .next t ∧
      let f := byteAfterStore s (x.val + 1) fun k => (s.readV (Fin.ofNat 16 k)).toNat
      t.fetchedWord.toNat = f s.pc.toNat * 256 + f (s.pc.toNat + 1)) ∧
    (s.i.toNat ≤ 4093 → ∃ t, exec (.ldB x) s = .next t ∧
      let f := byteAfterStore s 3 fun k => (s.readV x).toNat / 10 ^ (2 - k) % 10
      t.fetchedWord.toNat = f s.pc.toNat * 256 + f (s.pc.toNat + 1))

/-- A memory in canonical form is determined by what its bytes read as (the model's own representation, log entry 11). -/
def Obligations.CanonicalMemoryIsItsBytes : Prop :=
  ∀ m m' : Memory, m.wf = true → m'.wf = true → (∀ a, m.read a = m'.read a) → m = m'

/-! ## Display (47_display.md) -/

/-- R210: CLS sets every pixel to 0 and changes nothing else, VF included. -/
def Obligations.ClsClearsEveryPixel : Prop :=
  ∀ s : State,
    ∃ t, exec .cls s = .next t ∧ (∀ r c, t.fb.pixel r c = false) ∧
      KeepsV [] s t ∧ t.i = s.i ∧ t.pc = s.pc ∧ KeepsMem s t ∧ KeepsStack s t ∧ KeepsTimers s t ∧ KeepsRun s t ∧
      KeepsRest s t

/-- R211: with every sprite row in memory, DRW flips exactly the pixels under the sprite's unclipped 1 bits, VF is 1
exactly when one of them was set, and nothing else changes. Row width and bit order are the spec's decision D7, n = 0 its
decision D17 (log entry 13). -/
def Obligations.DrwFlipsTheSpritesPixels : Prop :=
  ∀ (x y : Reg) (n : Nibble) (s : State), (1 ≤ n.toNat → s.i.toNat + n.toNat - 1 ≤ 4095) →
    ∃ t, exec (.drw x y n) s = .next t ∧
      (∀ r c, t.fb.pixel r c = (s.fb.pixel r c ^^ spriteBit s x y n r c)) ∧
      ((t.readV vf).toNat = 1 ∨ (t.readV vf).toNat = 0) ∧
      ((t.readV vf).toNat = 1 ↔ ∃ r c, spriteBit s x y n r c = true ∧ s.fb.pixel r c = true) ∧
      KeepsV [vf] s t ∧ t.i = s.i ∧ t.pc = s.pc ∧ KeepsMem s t ∧ KeepsStack s t ∧ KeepsTimers s t ∧ KeepsRun s t ∧
      KeepsRest s t

/-- R212 (1): after CLS a draw shows exactly the sprite's unclipped part, and VF is 0. Row width and bit order are the
spec's decision D7, n = 0 its decision D17 (log entry 13). -/
def Obligations.DrawAfterClearShowsTheSprite : Prop :=
  ∀ (x y : Reg) (n : Nibble) (s t u : State), (1 ≤ n.toNat → s.i.toNat + n.toNat - 1 ≤ 4095) →
    exec .cls s = .next t → exec (.drw x y n) t = .next u →
    (∀ r c, u.fb.pixel r c = spriteBit s x y n r c) ∧ u.readV vf = 0

/-- R212 (2): drawing the same sprite at the same location twice restores the framebuffer, and VF after the second draw is
1 exactly when an unclipped 1 bit covers a pixel that was 0 before the first draw, else 0. Row width and bit order are the
spec's decision D7, n = 0 its decision D17 (log entry 13). -/
def Obligations.DrawingTwiceRestores : Prop :=
  ∀ (x y : Reg) (n : Nibble) (s t u : State), (1 ≤ n.toNat → s.i.toNat + n.toNat - 1 ≤ 4095) →
    exec (.drw x y n) s = .next t →
    (t.readV x).toNat % 64 = (s.readV x).toNat % 64 → (t.readV y).toNat % 32 = (s.readV y).toNat % 32 →
    exec (.drw x y n) t = .next u →
    u.fb = s.fb ∧
      ((u.readV vf).toNat = 1 ↔ ∃ r c, spriteBit s x y n r c = true ∧ s.fb.pixel r c = false) ∧
      ((u.readV vf).toNat = 1 ∨ (u.readV vf).toNat = 0)

/-! ## Keyboard (48_keyboard.md) -/

/-- R220, R221: SKP skips exactly when V[x] is a key code 0 to 15 whose key is down, SKNP exactly when it does not; nothing
but pc changes. A code above 15 counting as not pressed is the spec's decision D18 (log entry 14). -/
def Obligations.KeySkipsFollowTheKeyState : Prop :=
  ∀ (x : Reg) (s : State),
    ∃ t u, exec (.skp x) s = .next t ∧ exec (.sknp x) s = .next u ∧ OnlyPc s t ∧ OnlyPc s u ∧
      (∀ k : Key, (s.readV x).toNat = k.val → s.host.inputs.keysDown[k] = true → t.pc = s.pc + 2 ∧ u.pc = s.pc) ∧
      (∀ k : Key, (s.readV x).toNat = k.val → s.host.inputs.keysDown[k] = false → t.pc = s.pc ∧ u.pc = s.pc + 2) ∧
      ((s.readV x).toNat > 15 → t.pc = s.pc ∧ u.pc = s.pc + 2)

/-- R222: LD Vx,K always suspends: RUN becomes AwaitingKey and WAIT_REG x, and nothing else changes, V[x] included (the
spec's decision D19, log entry 14). -/
def Obligations.LdVxKSuspends : Prop :=
  ∀ (x : Reg) (s : State),
    ∃ t, exec (.ldVxK x) s = .next t ∧ t.run = .awaitingKey ∧ t.waitReg = x ∧
      KeepsV [] s t ∧ t.i = s.i ∧ t.pc = s.pc ∧ KeepsMem s t ∧ KeepsStack s t ∧ KeepsTimers s t ∧ KeepsFb s t ∧
      t.fault = s.fault ∧ KeepsRest s t

/-! ## Timers and the host's operations (49_timers.md, 40_execution_cycle.md) -/

/-- R230 to R232: LD Vx,DT copies DT to V[x], LD DT,Vx and LD ST,Vx set their timer from V[x]; nothing else changes. -/
def Obligations.TimerInstructionsCopy : Prop :=
  ∀ (x : Reg) (s : State),
    (∃ t, exec (.ldVxDt x) s = .next t ∧ t.readV x = s.dt ∧ OnlyV [x] s t) ∧
    (∃ t, exec (.ldDtVx x) s = .next t ∧ t.dt = s.readV x ∧ t.st = s.st ∧ KeepsV [] s t ∧ t.i = s.i ∧ t.pc = s.pc ∧
      KeepsMem s t ∧ KeepsStack s t ∧ KeepsFb s t ∧ KeepsRun s t ∧ KeepsRest s t) ∧
    (∃ t, exec (.ldStVx x) s = .next t ∧ t.st = s.readV x ∧ t.dt = s.dt ∧ KeepsV [] s t ∧ t.i = s.i ∧ t.pc = s.pc ∧
      KeepsMem s t ∧ KeepsStack s t ∧ KeepsFb s t ∧ KeepsRun s t ∧ KeepsRest s t)

/-- R233: a Tick of a core that is not Halted takes one from each timer that is not 0, never below 0, and changes nothing
else of the core; while a key is awaited too (the spec's decision D21, log entry 23). -/
def Obligations.TickCountsEachTimerDown : Prop :=
  ∀ s : State, NextIs s .tick → s.run ≠ .halted →
    ∃ t, step s = .next t ∧ t.dt.toNat = s.dt.toNat - 1 ∧ t.st.toNat = s.st.toNat - 1 ∧
      SameCore { s with dt := t.dt, st := t.st } t

/-- R131, R247: LoadRom of more than 3584 bytes answers RomTooLarge; otherwise, on a core that is not Halted, byte i of the
ROM goes to 0x200 + i and nothing else changes, pc included. The operation performed by a step has that effect, or none.
The premise on memory is the model's own invariant (log entry 11); LoadRom outside the boot sequence is the spec's
decision D25 (log entry 16). -/
def Obligations.LoadRomCopiesOrRejects : Prop :=
  ∀ (s : State) (rom : List Byte), s.mem.wf = true → s.run ≠ .halted → NextIs s (.loadRom rom) →
    (rom.length > 3584 → s.loadRom rom = .error .romTooLarge ∧ ∃ t, step s = .next t ∧ SameCore s t) ∧
    (rom.length ≤ 3584 → ∃ t u, s.loadRom rom = .ok u ∧ step s = .next t ∧ SameCore u t ∧
      (∀ k (h : k < rom.length), t.mem.read (0x200 + k) = rom[k]) ∧
      KeepsMemOutside 0x200 rom.length s t ∧ SameCore { s with mem := t.mem } t)

/-! ## Errors (60_exceptions.md) -/

/-- R240 to R246: in a core that is not Halted, an instruction raises exactly the error the table gives it, under exactly that condition, leaving the
state as it was but for RUN and FAULT (and pc back at the instruction); without that condition RUN does not become Halted
and FAULT is not written. No partial effect, and the record, are the spec's decisions D8 to D11 (log entry 18). -/
def Obligations.ErrorsExactlyWhenTheTableSays : Prop :=
  ∀ (i : Instr) (s : State), s.run ≠ .halted →
    ∃ t, exec i s = .next t ∧
      match errorOf i s with
      | some e => Raises i e s t
      | none => t.run ≠ .halted ∧ t.fault = s.fault

/-- R246: fatal errors are precise: a Step that halts a running core leaves the state as before the Step with only RUN and
FAULT changed, FAULT names the pc before the Step, and (unless the fetch itself failed) the word at that pc. The
no-partial-effect reading is the spec's decision D11 (log entry 18). -/
def Obligations.FatalErrorsArePrecise : Prop :=
  ∀ (s t : State) (inp : StepInputs) (rest : List HostOp),
    NextIsStep s inp rest → s.run = .running → step s = .next t → t.run = .halted →
    ∃ e w, SameCore { s with run := .halted, fault := some { error := e, pc := s.pc, word := w } } t ∧
      (s.pc.toNat + 1 ≤ 4095 → w = s.mem.read s.pc.toNat ++ s.mem.read (s.pc.toNat + 1))

/-! ## The whole machine (10_state.md) -/

/-- Every step of every host operation keeps the legal states: memory canonical, pc at most 0x10FE (R27), every live stack
entry at most 4096, and FAULT non-empty exactly when Halted (R35, R251). That memory has a canonical form is the model's
own choice (log entry 11), no rule of the spec. -/
def Obligations.LegalKeptByEveryStep : Prop :=
  ∀ s t : State, Legal s → step s = .next t → Legal t

/-- R21, R22: no instruction changes a general register other than its destination and, for the six instructions with a
flag, VF. -/
def Obligations.RegistersOutsideDestinationsKept : Prop :=
  ∀ (i : Instr) (s t : State), exec i s = .next t → KeepsV (destRegs i) s t

/-- R69: no instruction but LD B,Vx and LD [I],Vx changes a byte of memory, and those only at I to I + 2 and I to I + x. -/
def Obligations.OnlyTheTwoStoresChangeMemory : Prop :=
  ∀ (i : Instr) (s t : State) (a : Nat), exec i s = .next t → t.mem.read a ≠ s.mem.read a →
    (∃ x, i = .ldB x ∧ s.i.toNat ≤ a ∧ a ≤ s.i.toNat + 2) ∨
    (∃ x, i = .storeRegs x ∧ s.i.toNat ≤ a ∧ a ≤ s.i.toNat + x.val)

/-- R32: the framebuffer changes only by CLS, by DRW and by Reset. -/
def Obligations.FramebufferChangesOnlyByClsDrwReset : Prop :=
  ∀ s t : State, step s = .next t → t.fb ≠ s.fb →
    NextIs s .reset ∨ NextExecutes s .cls ∨ ∃ x y n, NextExecutes s (.drw x y n)

/-- R28, R29: SP and STACK change only by CALL and RET, whatever else an instruction does. -/
def Obligations.StackChangesOnlyByCallAndRet : Prop :=
  ∀ (i : Instr) (s t : State), exec i s = .next t → ¬ KeepsStack s t → i = .ret ∨ ∃ nnn, i = .call nnn

/-- R30, R31, R234: DT changes only by Tick, LD DT,Vx and Reset, ST only by Tick, LD ST,Vx and Reset: executing other
instructions does not make time pass. -/
def Obligations.TimersChangeOnlyByTickAndTheirLoads : Prop :=
  ∀ s t : State, step s = .next t →
    (t.dt ≠ s.dt → NextIs s .tick ∨ NextIs s .reset ∨ ∃ x, NextExecutes s (.ldDtVx x)) ∧
    (t.st ≠ s.st → NextIs s .tick ∨ NextIs s .reset ∨ ∃ x, NextExecutes s (.ldStVx x))

/-- R36: no step of any host operation, Reset included, changes CONFIG. -/
def Obligations.ConfigNeverChanges : Prop :=
  ∀ s t : State, step s = .next t → t.config = s.config

/-- R31: no instruction reads ST: with another ST every instruction does the same, and leaves that ST unless it is
LD ST,Vx. -/
def Obligations.SoundTimerIsUnread : Prop :=
  ∀ (i : Instr) (s t : State) (b : Byte), exec i s = .next t →
    exec i { s with st := b } = .next { t with st := if ∃ x, i = .ldStVx x then t.st else b }

/-- R127: an instruction other than RND, SKP and SKNP ignores the inputs of its Step. -/
def Obligations.InputsIgnoredUnlessSampled : Prop :=
  ∀ (i : Instr) (s t : State) (inp : StepInputs),
    (∀ x kk, i ≠ .rnd x kk) → (∀ x, i ≠ .skp x) → (∀ x, i ≠ .sknp x) → exec i s = .next t →
    exec i { s with host := { s.host with inputs := inp } } = .next { t with host := { t.host with inputs := inp } }

/-- R28: stack entries at index SP and above are dead: states that differ only in them take steps to states that differ
only in them. That popped slots keep their value is the spec's decision D14 (log entry 21). -/
def Obligations.DeadStackEntriesAreUnobservable : Prop :=
  ∀ s t s' : State, SameButDeadStack s t → step s = .next s' →
    ∃ t', step t = .next t' ∧ SameButDeadStack s' t'

/-! ## Boot and the host's cadence (70_reset_and_hazards.md R273, 49_timers.md R234) -/

/-- R273: if LoadRom is omitted, the first Step after Reset fetches 0x0000 at 0x200 and halts with UnsupportedOpcode,
leaving everything else of the core as it was (no partial effect: the spec's decision D11, log entry 18). -/
def Obligations.BootWithoutRomHalts : Prop :=
  ∀ (s t : State) (inp : StepInputs), NextIs s .reset → step s = .next t → NextIs t (.step inp) →
    ∃ u, step t = .next u ∧
      SameCore { t with run := .halted, fault := some { error := .unsupportedOpcode, pc := 0x200, word := 0x0000 } } u

/-- R273: every launch state is Running with FAULT empty and pc = 0x200, and meets the invariant of
`LegalKeptByEveryStep`; its memory's canonical form is the model's own (log entry 11). -/
def Obligations.LaunchStatesAreLegal : Prop :=
  ∀ (rom : List Byte) (s : State), Launched rom s → Legal s ∧ s.run = .running ∧ s.fault = none ∧ s.pc = 0x200

/-- R234: any number of Ticks may come between two Steps, while a key is awaited too (the spec's decision D21, log
entry 23): n Ticks in a row take n from each timer, down to 0, and change nothing else of the core. -/
def Obligations.AnyNumberOfTicksBetweenSteps : Prop :=
  ∀ (n : Nat) (s : State) (rest : List HostOp), s.run ≠ .halted → s.host.agenda = List.replicate n .tick ++ rest →
    ∃ t, Runs n s t ∧ t.dt.toNat = s.dt.toNat - n ∧ t.st.toNat = s.st.toNat - n ∧
      SameCore { s with dt := t.dt, st := t.st } t ∧ t.host.agenda = rest
end

