-- ==== Sys2Proof/Laws/Decode.lean ====
section
/-! SUPPORT. What each field reads from a word of each format (30_encoding.md R91, R92), and the bytes of a word. -/

namespace Sys2Proof

/-- A field of an appended value that lies wholly in its low part. -/
theorem extractLsb'_append_low {m k : Nat} (hi : BitVec m) (lo : BitVec k) (start len : Nat) (h : start + len ≤ k) :
    (hi ++ lo).extractLsb' start len = lo.extractLsb' start len := by
  ext j hj
  simp only [BitVec.getElem_extractLsb', BitVec.getLsbD_append, show start + j < k by omega, if_true]

/-- A field of an appended value that lies wholly in its high part. -/
theorem extractLsb'_append_high {m k : Nat} (hi : BitVec m) (lo : BitVec k) (start len : Nat) (h : k ≤ start) :
    (hi ++ lo).extractLsb' start len = hi.extractLsb' (start - k) len := by
  ext j hj
  simp only [BitVec.getElem_extractLsb', BitVec.getLsbD_append, show ¬ start + j < k by omega, if_false]
  rw [show start + j - k = start - k + j by omega]

@[simp] theorem regBits_toNat (r : Reg) : (regBits r).toNat = r.val := by
  have := r.isLt
  simp only [regBits, BitVec.toNat_ofNat]
  omega

@[simp] theorem opField_formatA (op : BitVec 4) (nnn : Addr12) : opField (formatA op nnn) = op.toNat := by
  unfold opField formatA
  rw [extractLsb'_append_high (hi := op) (lo := nnn) 12 4 (by omega)]
  simp

@[simp] theorem nnnField_formatA (op : BitVec 4) (nnn : Addr12) : nnnField (formatA op nnn) = nnn := by
  unfold nnnField formatA
  rw [extractLsb'_append_low (hi := op) (lo := nnn) 0 12 (by omega)]
  simp

@[simp] theorem opField_formatXK (op : BitVec 4) (x : Reg) (kk : Byte) : opField (formatXK op x kk) = op.toNat := by
  unfold opField formatXK
  rw [extractLsb'_append_high (hi := op ++ regBits x) (lo := kk) 12 4 (by omega),
    extractLsb'_append_high (hi := op) (lo := regBits x) 4 4 (by omega)]
  simp

@[simp] theorem xField_formatXK (op : BitVec 4) (x : Reg) (kk : Byte) : xField (formatXK op x kk) = x := by
  apply Fin.ext
  show ((formatXK op x kk).extractLsb' 8 4).toNat = x.val
  unfold formatXK
  rw [extractLsb'_append_high (hi := op ++ regBits x) (lo := kk) 8 4 (by omega),
    extractLsb'_append_low (hi := op) (lo := regBits x) 0 4 (by omega)]
  simp

@[simp] theorem kkField_formatXK (op : BitVec 4) (x : Reg) (kk : Byte) : kkField (formatXK op x kk) = kk := by
  unfold kkField formatXK
  rw [extractLsb'_append_low (hi := op ++ regBits x) (lo := kk) 0 8 (by omega)]
  simp

@[simp] theorem opField_formatXY (op : BitVec 4) (x y : Reg) (f : Nibble) :
    opField (formatXY op x y f) = op.toNat := by
  unfold opField formatXY
  rw [extractLsb'_append_high (hi := op ++ regBits x ++ regBits y) (lo := f) 12 4 (by omega),
    extractLsb'_append_high (hi := op ++ regBits x) (lo := regBits y) 8 4 (by omega),
    extractLsb'_append_high (hi := op) (lo := regBits x) 4 4 (by omega)]
  simp

@[simp] theorem xField_formatXY (op : BitVec 4) (x y : Reg) (f : Nibble) : xField (formatXY op x y f) = x := by
  apply Fin.ext
  show ((formatXY op x y f).extractLsb' 8 4).toNat = x.val
  unfold formatXY
  rw [extractLsb'_append_high (hi := op ++ regBits x ++ regBits y) (lo := f) 8 4 (by omega),
    extractLsb'_append_high (hi := op ++ regBits x) (lo := regBits y) 4 4 (by omega),
    extractLsb'_append_low (hi := op) (lo := regBits x) 0 4 (by omega)]
  simp

@[simp] theorem yField_formatXY (op : BitVec 4) (x y : Reg) (f : Nibble) : yField (formatXY op x y f) = y := by
  apply Fin.ext
  show ((formatXY op x y f).extractLsb' 4 4).toNat = y.val
  unfold formatXY
  rw [extractLsb'_append_high (hi := op ++ regBits x ++ regBits y) (lo := f) 4 4 (by omega),
    extractLsb'_append_low (hi := op ++ regBits x) (lo := regBits y) 0 4 (by omega)]
  simp

@[simp] theorem nField_formatXY (op : BitVec 4) (x y : Reg) (f : Nibble) : nField (formatXY op x y f) = f := by
  unfold nField formatXY
  rw [extractLsb'_append_low (hi := op ++ regBits x ++ regBits y) (lo := f) 0 4 (by omega)]
  simp

/-- The two bytes of a word make the word again (20_memory.md R63). -/
@[simp] theorem wordOfBytes_highByte_lowByte (w : Word) : wordOfBytes (highByte w) (lowByte w) = w := by
  unfold wordOfBytes highByte lowByte
  ext j hj
  simp only [BitVec.getElem_append, BitVec.getElem_extractLsb']
  split
  · simp [BitVec.getLsbD_eq_getElem, hj]
  · rw [show 8 + (j - 8) = j by omega, BitVec.getLsbD_eq_getElem]

/-- The value of a word of two bytes (20_memory.md R63). -/
theorem wordOfBytes_toNat (hi lo : Byte) : (wordOfBytes hi lo).toNat = hi.toNat * 256 + lo.toNat := by
  unfold wordOfBytes
  rw [BitVec.toNat_append, Nat.shiftLeft_eq, Nat.mul_comm, ← Nat.two_pow_add_eq_or_of_lt lo.isLt]

/-- Two bytes and whatever follows decode as their word does (30_encoding.md R90). -/
theorem decode_cons_cons (hi lo : Byte) (rest : List Byte) :
    decode (hi :: lo :: rest) = (decodeWord (wordOfBytes hi lo)).map fun i => (i, rest) := rfl

end Sys2Proof
end

