-- ==== Sys2Proof/Laws/Memory.lean ====
section
/-! SUPPORT. The laws of MEM: every operation keeps the canonical form, a read after a write gives the value written, a
write leaves every other byte alone (20_memory.md R64, R65, R70); and the same for runs of bytes. -/

namespace Sys2Proof.Machine

/-! ## The canonical form is kept -/

theorem Memory.wfFrom_mono {lo lo' : Nat} (h : lo' ≤ lo) : ∀ {m : Memory}, m.wfFrom lo = true → m.wfFrom lo' = true
  | [], _ => rfl
  | (a, b) :: m, hm => by
    simp only [Memory.wfFrom, Bool.and_eq_true, decide_eq_true_eq] at hm ⊢
    exact ⟨⟨⟨by omega, hm.1.1.2⟩, hm.1.2⟩, hm.2⟩

theorem Memory.wfFrom_cons {lo a : Nat} {b : Byte} {m : Memory} (hlo : lo ≤ a) (ha : a < memSize)
    (hm : m.wfFrom (a + 1) = true) : (Memory.cons a b m).wfFrom lo = true := by
  unfold Memory.cons
  split
  · exact Memory.wfFrom_mono (by omega) hm
  · simp_all [Memory.wfFrom]

theorem Memory.wfFrom_write {a : Nat} {b : Byte} (ha : a < memSize) :
    ∀ {m : Memory} {lo : Nat}, lo ≤ a → m.wfFrom lo = true → (m.write a b).wfFrom lo = true
  | [], _, hlo, _ => Memory.wfFrom_cons hlo ha rfl
  | (a', b') :: m, lo, hlo, hm => by
    have hm' := hm
    simp only [Memory.wfFrom, Bool.and_eq_true, decide_eq_true_eq] at hm
    obtain ⟨⟨⟨h1, h2⟩, h3⟩, h4⟩ := hm
    simp only [Memory.write]
    split
    · refine Memory.wfFrom_cons hlo ha ?_
      simp only [Memory.wfFrom, Bool.and_eq_true, decide_eq_true_eq]
      exact ⟨⟨⟨by omega, h2⟩, h3⟩, h4⟩
    · split
      · subst_vars
        exact Memory.wfFrom_cons hlo ha h4
      · simp only [Memory.wfFrom, Bool.and_eq_true, decide_eq_true_eq]
        exact ⟨⟨⟨h1, h2⟩, h3⟩, Memory.wfFrom_write ha (by omega) h4⟩

/-- A write to an existing address keeps the canonical form. -/
theorem Memory.wf_write {m : Memory} {a : Nat} (b : Byte) (ha : a < memSize) (hm : m.wf = true) :
    (m.write a b).wf = true := Memory.wfFrom_write ha (Nat.zero_le _) hm

/-- A run of writes to existing addresses keeps the canonical form. -/
theorem Memory.wf_storeBytes : ∀ {bs : List Byte} {m : Memory} {a : Nat},
    a + bs.length ≤ memSize → m.wf = true → (m.storeBytes a bs).wf = true
  | [], _, _, _, hm => hm
  | b :: bs, m, a, ha, hm => by
    simp only [List.length_cons] at ha
    have hw : (m.write a b).wf = true := Memory.wf_write b (by omega) hm
    rw [Memory.storeBytes]
    exact Memory.wf_storeBytes (by omega) hw

/-- Reset memory has the canonical form. -/
theorem Memory.wf_reset : (State.reset.mem).wf = true := rfl

/-! ## Reading -/

/-- Below the first listed address, memory holds its reset contents. -/
theorem Memory.read_of_lt : ∀ {m : Memory} {lo a : Nat}, m.wfFrom lo = true → a < lo → m.read a = resetByte a
  | [], _, _, _, _ => rfl
  | (a', b) :: m, lo, a, hm, ha => by
    simp only [Memory.wfFrom, Bool.and_eq_true, decide_eq_true_eq] at hm
    rw [Memory.read, if_neg (by omega)]
    exact Memory.read_of_lt hm.2 (by omega)

theorem Memory.read_cons_same {a : Nat} {b : Byte} {m : Memory} (hm : m.wfFrom (a + 1) = true) :
    (Memory.cons a b m).read a = b := by
  unfold Memory.cons
  split
  · rw [Memory.read_of_lt hm (by omega)]; exact (‹b = resetByte a›).symm
  · simp [Memory.read]

theorem Memory.read_cons_ne {a x : Nat} (b : Byte) (m : Memory) (h : x ≠ a) :
    (Memory.cons a b m).read x = m.read x := by
  unfold Memory.cons
  split
  · rfl
  · simp [Memory.read, h]

/-- A write leaves every other byte alone, in any list. -/
theorem Memory.read_write_ne {a x : Nat} (b : Byte) (h : x ≠ a) : ∀ m : Memory, (m.write a b).read x = m.read x
  | [] => Memory.read_cons_ne b [] h
  | (a', b') :: m => by
    simp only [Memory.write]
    split
    · exact Memory.read_cons_ne b _ h
    · split
      · subst_vars
        rw [Memory.read_cons_ne b _ h]; simp [Memory.read, h]
      · simp only [Memory.read, Memory.read_write_ne b h m]

theorem Memory.read_write_same_from {a : Nat} (b : Byte) :
    ∀ {m : Memory} {lo : Nat}, m.wfFrom lo = true → (m.write a b).read a = b
  | [], _, _ => Memory.read_cons_same rfl
  | (a', b') :: m, lo, hm => by
    simp only [Memory.wfFrom, Bool.and_eq_true, decide_eq_true_eq] at hm
    simp only [Memory.write]
    split
    · refine Memory.read_cons_same ?_
      simp only [Memory.wfFrom, Bool.and_eq_true, decide_eq_true_eq]
      exact ⟨⟨⟨by omega, hm.1.1.2⟩, hm.1.2⟩, hm.2⟩
    · split
      · subst_vars
        exact Memory.read_cons_same hm.2
      · rw [Memory.read, if_neg (by omega)]
        exact Memory.read_write_same_from b hm.2

/-- One spec of a write: the byte written, every other byte as before. -/
theorem Memory.read_write {m : Memory} (hm : m.wf = true) (a x : Nat) (b : Byte) :
    (m.write a b).read x = if x = a then b else m.read x := by
  split
  · subst_vars; exact Memory.read_write_same_from b hm
  · exact Memory.read_write_ne b ‹_› m

/-- A run of writes leaves every byte outside it alone, in any list. -/
theorem Memory.read_storeBytes_outside : ∀ (bs : List Byte) (m : Memory) (a x : Nat),
    (x < a ∨ a + bs.length ≤ x) → (m.storeBytes a bs).read x = m.read x
  | [], _, _, _, _ => rfl
  | b :: bs, m, a, x, h => by
    simp only [List.length_cons] at h
    rw [Memory.storeBytes, Memory.read_storeBytes_outside bs _ _ _ (by omega), Memory.read_write_ne b (by omega)]

/-- One spec of a run of writes: inside it the bytes written in order, outside it every byte as before. -/
theorem Memory.read_storeBytes : ∀ (bs : List Byte) (m : Memory) (a x : Nat),
    a + bs.length ≤ memSize → m.wf = true →
    (m.storeBytes a bs).read x = if a ≤ x then (bs[x - a]?).getD (m.read x) else m.read x
  | [], m, a, x, _, _ => by simp [Memory.storeBytes]
  | b :: bs, m, a, x, ha, hm => by
    simp only [List.length_cons] at ha
    have hw := Memory.wf_write b (show a < memSize by omega) hm
    rw [Memory.storeBytes, Memory.read_storeBytes bs _ _ _ (by omega) hw, Memory.read_write hm]
    rcases Nat.lt_trichotomy x a with h | h | h
    · rw [if_neg (by omega), if_neg (by omega), if_neg (by omega)]
    · subst h; simp
    · obtain ⟨k, rfl⟩ : ∃ k, x = a + 1 + k := ⟨x - (a + 1), by omega⟩
      have e1 : a + 1 + k - (a + 1) = k := by omega
      have e2 : a + 1 + k - a = k + 1 := by omega
      rw [if_pos (by omega), if_neg (by omega), if_pos (by omega), e1, e2, List.getElem?_cons_succ]

@[simp] theorem Memory.readBytes_length (m : Memory) : ∀ (len a : Nat), (m.readBytes a len).length = len
  | 0, _ => rfl
  | len + 1, a => by simp [Memory.readBytes, Memory.readBytes_length m len]

/-- The k-th byte of a run is the byte at the k-th address. -/
theorem Memory.readBytes_getElem? (m : Memory) : ∀ (len a k : Nat),
    (m.readBytes a len)[k]? = if k < len then some (m.read (a + k)) else none
  | 0, _, _ => by simp [Memory.readBytes]
  | len + 1, a, 0 => by simp [Memory.readBytes]
  | len + 1, a, k + 1 => by
    simp only [Memory.readBytes, List.getElem?_cons_succ, Memory.readBytes_getElem? m len, Nat.add_lt_add_iff_right]
    rw [show a + 1 + k = a + (k + 1) by omega]

/-- The bound in the spec's words: no address of the run lies above 4095 (20_memory.md R67). -/
theorem inBounds_iff (a len : Nat) : inBounds a len = true ↔ (1 ≤ len → a + len - 1 ≤ 4095) := by
  unfold inBounds
  rw [Bool.or_eq_true, beq_iff_eq, decide_eq_true_iff]
  unfold memSize
  omega

end Sys2Proof.Machine
end

