-- ==== Sys2Proof/Laws/Display.lean ====
section
/-! SUPPORT. The drawing loop of DRW as a formula: which pixels a sprite covers, and what a drawing holds pixel by pixel
(47_display.md R211). -/

namespace Sys2Proof.Machine

/-! ## Pixels -/

/-- Two framebuffers with the same pixels are equal. -/
theorem Framebuffer.ext_pixel {f g : Framebuffer}
    (h : ∀ r c, r < 32 → c < 64 → f.pixel r c = g.pixel r c) : f = g := by
  apply Vector.ext
  intro r hr
  apply Vector.ext
  intro c hc
  simpa [Framebuffer.pixel, hr, hc] using h r c hr hc

/-- Outside the grid there is no pixel. -/
theorem Framebuffer.pixel_outside (f : Framebuffer) {r c : Nat} (h : ¬(r < 32 ∧ c < 64)) : f.pixel r c = false := by
  simp [Framebuffer.pixel, h]

theorem Framebuffer.pixel_setPixel (f : Framebuffer) (r c r' c' : Nat) (b : Bool) :
    (f.setPixel r c b).pixel r' c' =
      if r' = r ∧ c' = c ∧ r < 32 ∧ c < 64 then b else f.pixel r' c' := by
  unfold Framebuffer.setPixel
  split
  · rename_i h
    unfold Framebuffer.pixel
    by_cases h' : r' < 32 ∧ c' < 64
    · simp only [h', h, and_self, and_true, dite_true, Vector.getElem_set]
      by_cases hr : r = r'
      · subst hr
        by_cases hc : c = c'
        · subst hc; simp
        · simp [hc, Ne.symm hc]
      · simp [hr, Ne.symm hr]
    · rw [dif_neg h', dif_neg h', if_neg]
      rintro ⟨rfl, rfl, hh⟩
      exact h' hh
  · rename_i h
    rw [if_neg]
    rintro ⟨rfl, rfl, hh⟩
    exact h hh

@[simp] theorem Framebuffer.pixel_blank (r c : Nat) : Framebuffer.blank.pixel r c = false := by
  simp [Framebuffer.pixel, Framebuffer.blank]

/-! ## One bit, one row, a whole sprite -/

/-- One sprite bit: it flips its own pixel if it is 1 and inside the grid, and nothing else. -/
theorem plotBit_pixel (d : Framebuffer × Bool) (r c : Nat) (bit : Bool) (r' c' : Nat) :
    (plotBit d r c bit).1.pixel r' c' =
      (d.1.pixel r' c' ^^ (bit && decide (r' = r ∧ c' = c ∧ r < 32 ∧ c < 64))) := by
  unfold plotBit
  split
  · rename_i h
    simp only [Bool.and_eq_true, decide_eq_true_eq] at h
    rw [Framebuffer.pixel_setPixel]
    by_cases h' : r' = r ∧ c' = c
    · obtain ⟨rfl, rfl⟩ := h'
      simp [h]
    · have : ¬(r' = r ∧ c' = c ∧ r < 32 ∧ c < 64) := fun hh => h' ⟨hh.1, hh.2.1⟩
      simp [this]
  · rename_i h
    simp only [Bool.and_eq_true, decide_eq_true_eq, not_and] at h
    cases bit
    · simp
    · have : ¬(r' = r ∧ c' = c ∧ r < 32 ∧ c < 64) := fun hh => h ⟨rfl, hh.2.2.1⟩ hh.2.2.2
      simp [this]

/-- One sprite bit collides exactly when it is 1, inside the grid and on a set pixel. -/
theorem plotBit_collision (d : Framebuffer × Bool) (r c : Nat) (bit : Bool) :
    (plotBit d r c bit).2 = (d.2 || (bit && d.1.pixel r c)) := by
  unfold plotBit
  split
  · rename_i h
    simp only [Bool.and_eq_true, decide_eq_true_eq] at h
    simp [h]
  · rename_i h
    simp only [Bool.and_eq_true, decide_eq_true_eq, not_and] at h
    cases bit
    · simp
    · have : ¬(r < 32 ∧ c < 64) := fun hh => h ⟨rfl, hh.1⟩ hh.2
      simp [Framebuffer.pixel_outside _ this]

/-- Whether the sprite row `b` at row r, column x0, from its column `c` on for `left` columns, has a 1 bit on the pixel
(r', c') of the grid. -/
def rowCovers (r x0 : Nat) (b : Byte) (c left r' c' : Nat) : Bool :=
  decide (r' = r ∧ r < 32 ∧ c' < 64 ∧ x0 + c ≤ c' ∧ c' < x0 + c + left) && b.getLsbD (7 - (c' - x0))

/-- The pixels after drawing part of a row. -/
theorem plotRow_pixel (r x0 : Nat) (b : Byte) (r' c' : Nat) : ∀ (left c : Nat) (d : Framebuffer × Bool),
    (plotRow d r x0 b c left).1.pixel r' c' = (d.1.pixel r' c' ^^ rowCovers r x0 b c left r' c')
  | 0, c, d => by
    simp only [plotRow, rowCovers, Nat.add_zero]
    rw [decide_eq_false (by omega)]
    simp
  | left + 1, c, d => by
    rw [plotRow, plotRow_pixel r x0 b r' c' left, plotBit_pixel]
    rw [Bool.xor_assoc]
    congr 1
    unfold rowCovers
    by_cases hc : c' = x0 + c
    · subst hc
      have h1 : ¬(r' = r ∧ r < 32 ∧ x0 + c < 64 ∧ x0 + (c + 1) ≤ x0 + c ∧ x0 + c < x0 + (c + 1) + left) := by omega
      have h2 : x0 + c - x0 = c := by omega
      simp only [h1, decide_false, Bool.false_and, Bool.xor_false, h2]
      by_cases hr : r' = r ∧ r < 32 ∧ x0 + c < 64
      · have h3 : x0 + c < x0 + c + (left + 1) := by omega
        simp [hr, h3]
      · have h3 : ¬(r' = r ∧ r < 32 ∧ x0 + c < 64 ∧ x0 + c ≤ x0 + c ∧ x0 + c < x0 + c + (left + 1)) :=
          fun hh => hr ⟨hh.1, hh.2.1, hh.2.2.1⟩
        simp only [h3, hr, true_and, decide_false, Bool.and_false, Bool.false_and]
    · have h0 : ¬(r' = r ∧ c' = x0 + c ∧ r < 32 ∧ x0 + c < 64) := fun hh => hc hh.2.1
      have h1 : (r' = r ∧ r < 32 ∧ c' < 64 ∧ x0 + (c + 1) ≤ c' ∧ c' < x0 + (c + 1) + left) ↔
          (r' = r ∧ r < 32 ∧ c' < 64 ∧ x0 + c ≤ c' ∧ c' < x0 + c + (left + 1)) := by omega
      simp only [h0, h1, decide_false, Bool.and_false, Bool.false_xor]

/-- Bits of one row fall on different pixels, so a row collides exactly when a 1 bit of it covers a pixel that was set
before the row. -/
theorem plotRow_collision (r x0 : Nat) (b : Byte) : ∀ (left c : Nat) (d : Framebuffer × Bool),
    (plotRow d r x0 b c left).2 = true ↔
      d.2 = true ∨ ∃ c', rowCovers r x0 b c left r c' = true ∧ d.1.pixel r c' = true
  | 0, c, d => by
    simp only [plotRow, rowCovers, Bool.and_eq_true, decide_eq_true_eq]
    constructor
    · exact .inl
    · rintro (h | ⟨c', h, -⟩)
      · exact h
      · omega
  | left + 1, c, d => by
    rw [plotRow, plotRow_collision r x0 b left, plotBit_collision]
    simp only [Bool.or_eq_true, Bool.and_eq_true, plotBit_pixel, rowCovers, decide_eq_true_eq, true_and]
    constructor
    · rintro ((h | ⟨h1, h2⟩) | ⟨c', ⟨h1, h2⟩, h3⟩)
      · exact .inl h
      · refine .inr ⟨x0 + c, ⟨?_, ?_⟩, h2⟩
        · have : r < 32 ∧ x0 + c < 64 := by
            by_contra hh
            rw [Framebuffer.pixel_outside _ hh] at h2
            cases h2
          omega
        · rw [show x0 + c - x0 = c by omega]; exact h1
      · have : ¬(c' = x0 + c ∧ r < 32 ∧ x0 + c < 64) := by omega
        simp only [this, decide_false, Bool.and_false, Bool.xor_false] at h3
        exact .inr ⟨c', ⟨by omega, h2⟩, h3⟩
    · rintro (h | ⟨c', ⟨h1, h2⟩, h3⟩)
      · exact .inl (.inl h)
      · by_cases hc : c' = x0 + c
        · subst hc
          rw [show x0 + c - x0 = c by omega] at h2
          exact .inl (.inr ⟨h2, h3⟩)
        · refine .inr ⟨c', ⟨by omega, h2⟩, ?_⟩
          have : ¬(c' = x0 + c ∧ r < 32 ∧ x0 + c < 64) := by omega
          simpa only [this, decide_false, Bool.and_false, Bool.xor_false] using h3

/-- Whether the sprite `bs`, its first row at row r and its first column at column x0, has an unclipped 1 bit on the
pixel (r', c'). -/
def spriteCovers (r x0 : Nat) (bs : List Byte) (r' c' : Nat) : Bool :=
  decide (r ≤ r' ∧ r' < 32 ∧ x0 ≤ c' ∧ c' < x0 + 8 ∧ c' < 64) &&
    ((bs[r' - r]?).getD 0).getLsbD (7 - (c' - x0))

theorem spriteCovers_cons (r x0 : Nat) (b : Byte) (bs : List Byte) (r' c' : Nat) :
    spriteCovers r x0 (b :: bs) r' c' = (rowCovers r x0 b 0 8 r' c' ^^ spriteCovers (r + 1) x0 bs r' c') := by
  unfold spriteCovers rowCovers
  rcases Nat.lt_trichotomy r' r with h | h | h
  · have h1 : ¬ r ≤ r' := by omega
    have h2 : ¬ r' = r := by omega
    have h3 : ¬ r + 1 ≤ r' := by omega
    simp [h1, h2, h3]
  · subst h
    have h3 : ¬ r' + 1 ≤ r' := by omega
    simp only [le_refl, true_and, Nat.sub_self, List.getElem?_cons_zero, Option.getD_some, Nat.add_zero, h3, false_and,
      decide_false, Bool.false_and, Bool.xor_false]
    congr 1
    exact decide_eq_decide.mpr (by omega)
  · obtain ⟨k, rfl⟩ : ∃ k, r' = r + 1 + k := ⟨r' - (r + 1), by omega⟩
    have e1 : r + 1 + k - r = k + 1 := by omega
    have e2 : r + 1 + k - (r + 1) = k := by omega
    have h1 : r ≤ r + 1 + k := by omega
    have h2 : ¬ r + 1 + k = r := by omega
    have h3 : r + 1 ≤ r + 1 + k := by omega
    simp [e1, e2, h1, h2, h3]

theorem spriteCovers_nil (r x0 r' c' : Nat) : spriteCovers r x0 [] r' c' = false := by simp [spriteCovers]

/-- The pixels after a whole sprite: flipped where it has an unclipped 1 bit. -/
theorem plotSprite_pixel (x0 : Nat) (r' c' : Nat) : ∀ (bs : List Byte) (r : Nat) (d : Framebuffer × Bool),
    (plotSprite d r x0 bs).1.pixel r' c' = (d.1.pixel r' c' ^^ spriteCovers r x0 bs r' c')
  | [], r, d => by simp [plotSprite, spriteCovers_nil]
  | b :: bs, r, d => by
    rw [plotSprite, plotSprite_pixel x0 r' c' bs, plotRow_pixel, spriteCovers_cons, Bool.xor_assoc]

/-- A sprite collides exactly when an unclipped 1 bit of it covers a pixel that was set before the drawing. -/
theorem plotSprite_collision (x0 : Nat) : ∀ (bs : List Byte) (r : Nat) (d : Framebuffer × Bool),
    (plotSprite d r x0 bs).2 = true ↔
      d.2 = true ∨ ∃ r' c', spriteCovers r x0 bs r' c' = true ∧ d.1.pixel r' c' = true
  | [], r, d => by simp [plotSprite, spriteCovers_nil]
  | b :: bs, r, d => by
    rw [plotSprite, plotSprite_collision x0 bs, plotRow_collision]
    have key : ∀ r' c', rowCovers r x0 b 0 8 r' c' = true → r' = r := by
      intro r' c' h
      simp only [rowCovers, Bool.and_eq_true, decide_eq_true_eq] at h
      exact h.1.1
    have key' : ∀ r' c', spriteCovers (r + 1) x0 bs r' c' = true → r + 1 ≤ r' := by
      intro r' c' h
      simp only [spriteCovers, Bool.and_eq_true, decide_eq_true_eq] at h
      exact h.1.1
    simp only [plotRow_pixel, spriteCovers_cons]
    constructor
    · rintro ((h | ⟨c', h1, h2⟩) | ⟨r', c', h1, h2⟩)
      · exact .inl h
      · refine .inr ⟨r, c', ?_, h2⟩
        have : spriteCovers (r + 1) x0 bs r c' = false := by
          cases hh : spriteCovers (r + 1) x0 bs r c'
          · rfl
          · have := key' _ _ hh; omega
        simp [h1, this]
      · have hr := key' _ _ h1
        have : rowCovers r x0 b 0 8 r' c' = false := by
          cases hh : rowCovers r x0 b 0 8 r' c'
          · rfl
          · have := key _ _ hh; omega
        simp only [this, Bool.xor_false] at h2
        exact .inr ⟨r', c', by simp [h1, this], h2⟩
    · rintro (h | ⟨r', c', h1, h2⟩)
      · exact .inl (.inl h)
      · cases hh : rowCovers r x0 b 0 8 r' c'
        · simp only [hh, Bool.false_xor] at h1
          exact .inr ⟨r', c', h1, by simpa [hh] using h2⟩
        · have := key _ _ hh
          subst this
          exact .inl (.inr ⟨c', hh, h2⟩)

end Sys2Proof.Machine
end

