-- ==== Sys2Proof/Laws/State.lean ====
section
/-! SUPPORT. One lemma per field per named update of State, each true by definition, so that no proof unfolds a record
update; and what `readV` reads after each of them. -/

namespace Sys2Proof.Machine

section

variable (s : State)

/-! ### `State.writeV` -/

@[simp] theorem State.writeV_mem (x : Reg) (b : Byte) : (s.writeV x b).mem = s.mem := rfl
@[simp] theorem State.writeV_v (x : Reg) (b : Byte) : (s.writeV x b).v = s.v.set x b := rfl
@[simp] theorem State.writeV_i (x : Reg) (b : Byte) : (s.writeV x b).i = s.i := rfl
@[simp] theorem State.writeV_pc (x : Reg) (b : Byte) : (s.writeV x b).pc = s.pc := rfl
@[simp] theorem State.writeV_stack (x : Reg) (b : Byte) : (s.writeV x b).stack = s.stack := rfl
@[simp] theorem State.writeV_sp (x : Reg) (b : Byte) : (s.writeV x b).sp = s.sp := rfl
@[simp] theorem State.writeV_dt (x : Reg) (b : Byte) : (s.writeV x b).dt = s.dt := rfl
@[simp] theorem State.writeV_st (x : Reg) (b : Byte) : (s.writeV x b).st = s.st := rfl
@[simp] theorem State.writeV_fb (x : Reg) (b : Byte) : (s.writeV x b).fb = s.fb := rfl
@[simp] theorem State.writeV_run (x : Reg) (b : Byte) : (s.writeV x b).run = s.run := rfl
@[simp] theorem State.writeV_waitReg (x : Reg) (b : Byte) : (s.writeV x b).waitReg = s.waitReg := rfl
@[simp] theorem State.writeV_fault (x : Reg) (b : Byte) : (s.writeV x b).fault = s.fault := rfl
@[simp] theorem State.writeV_config (x : Reg) (b : Byte) : (s.writeV x b).config = s.config := rfl
@[simp] theorem State.writeV_host (x : Reg) (b : Byte) : (s.writeV x b).host = s.host := rfl

/-! ### `State.setV` -/

@[simp] theorem State.setV_mem (v : Vector Byte 16) : (s.setV v).mem = s.mem := rfl
@[simp] theorem State.setV_v (v : Vector Byte 16) : (s.setV v).v = v := rfl
@[simp] theorem State.setV_i (v : Vector Byte 16) : (s.setV v).i = s.i := rfl
@[simp] theorem State.setV_pc (v : Vector Byte 16) : (s.setV v).pc = s.pc := rfl
@[simp] theorem State.setV_stack (v : Vector Byte 16) : (s.setV v).stack = s.stack := rfl
@[simp] theorem State.setV_sp (v : Vector Byte 16) : (s.setV v).sp = s.sp := rfl
@[simp] theorem State.setV_dt (v : Vector Byte 16) : (s.setV v).dt = s.dt := rfl
@[simp] theorem State.setV_st (v : Vector Byte 16) : (s.setV v).st = s.st := rfl
@[simp] theorem State.setV_fb (v : Vector Byte 16) : (s.setV v).fb = s.fb := rfl
@[simp] theorem State.setV_run (v : Vector Byte 16) : (s.setV v).run = s.run := rfl
@[simp] theorem State.setV_waitReg (v : Vector Byte 16) : (s.setV v).waitReg = s.waitReg := rfl
@[simp] theorem State.setV_fault (v : Vector Byte 16) : (s.setV v).fault = s.fault := rfl
@[simp] theorem State.setV_config (v : Vector Byte 16) : (s.setV v).config = s.config := rfl
@[simp] theorem State.setV_host (v : Vector Byte 16) : (s.setV v).host = s.host := rfl
@[simp] theorem State.setV_readV (v : Vector Byte 16) (y : Reg) : (s.setV v).readV y = v[y] := rfl

/-! ### `State.setI` -/

@[simp] theorem State.setI_mem (a : Word) : (s.setI a).mem = s.mem := rfl
@[simp] theorem State.setI_v (a : Word) : (s.setI a).v = s.v := rfl
@[simp] theorem State.setI_i (a : Word) : (s.setI a).i = a := rfl
@[simp] theorem State.setI_pc (a : Word) : (s.setI a).pc = s.pc := rfl
@[simp] theorem State.setI_stack (a : Word) : (s.setI a).stack = s.stack := rfl
@[simp] theorem State.setI_sp (a : Word) : (s.setI a).sp = s.sp := rfl
@[simp] theorem State.setI_dt (a : Word) : (s.setI a).dt = s.dt := rfl
@[simp] theorem State.setI_st (a : Word) : (s.setI a).st = s.st := rfl
@[simp] theorem State.setI_fb (a : Word) : (s.setI a).fb = s.fb := rfl
@[simp] theorem State.setI_run (a : Word) : (s.setI a).run = s.run := rfl
@[simp] theorem State.setI_waitReg (a : Word) : (s.setI a).waitReg = s.waitReg := rfl
@[simp] theorem State.setI_fault (a : Word) : (s.setI a).fault = s.fault := rfl
@[simp] theorem State.setI_config (a : Word) : (s.setI a).config = s.config := rfl
@[simp] theorem State.setI_host (a : Word) : (s.setI a).host = s.host := rfl
@[simp] theorem State.setI_readV (a : Word) (y : Reg) : (s.setI a).readV y = s.readV y := rfl

/-! ### `State.setPc` -/

@[simp] theorem State.setPc_mem (a : Word) : (s.setPc a).mem = s.mem := rfl
@[simp] theorem State.setPc_v (a : Word) : (s.setPc a).v = s.v := rfl
@[simp] theorem State.setPc_i (a : Word) : (s.setPc a).i = s.i := rfl
@[simp] theorem State.setPc_pc (a : Word) : (s.setPc a).pc = a := rfl
@[simp] theorem State.setPc_stack (a : Word) : (s.setPc a).stack = s.stack := rfl
@[simp] theorem State.setPc_sp (a : Word) : (s.setPc a).sp = s.sp := rfl
@[simp] theorem State.setPc_dt (a : Word) : (s.setPc a).dt = s.dt := rfl
@[simp] theorem State.setPc_st (a : Word) : (s.setPc a).st = s.st := rfl
@[simp] theorem State.setPc_fb (a : Word) : (s.setPc a).fb = s.fb := rfl
@[simp] theorem State.setPc_run (a : Word) : (s.setPc a).run = s.run := rfl
@[simp] theorem State.setPc_waitReg (a : Word) : (s.setPc a).waitReg = s.waitReg := rfl
@[simp] theorem State.setPc_fault (a : Word) : (s.setPc a).fault = s.fault := rfl
@[simp] theorem State.setPc_config (a : Word) : (s.setPc a).config = s.config := rfl
@[simp] theorem State.setPc_host (a : Word) : (s.setPc a).host = s.host := rfl
@[simp] theorem State.setPc_readV (a : Word) (y : Reg) : (s.setPc a).readV y = s.readV y := rfl

/-! ### `State.setMem` -/

@[simp] theorem State.setMem_mem (m : Memory) : (s.setMem m).mem = m := rfl
@[simp] theorem State.setMem_v (m : Memory) : (s.setMem m).v = s.v := rfl
@[simp] theorem State.setMem_i (m : Memory) : (s.setMem m).i = s.i := rfl
@[simp] theorem State.setMem_pc (m : Memory) : (s.setMem m).pc = s.pc := rfl
@[simp] theorem State.setMem_stack (m : Memory) : (s.setMem m).stack = s.stack := rfl
@[simp] theorem State.setMem_sp (m : Memory) : (s.setMem m).sp = s.sp := rfl
@[simp] theorem State.setMem_dt (m : Memory) : (s.setMem m).dt = s.dt := rfl
@[simp] theorem State.setMem_st (m : Memory) : (s.setMem m).st = s.st := rfl
@[simp] theorem State.setMem_fb (m : Memory) : (s.setMem m).fb = s.fb := rfl
@[simp] theorem State.setMem_run (m : Memory) : (s.setMem m).run = s.run := rfl
@[simp] theorem State.setMem_waitReg (m : Memory) : (s.setMem m).waitReg = s.waitReg := rfl
@[simp] theorem State.setMem_fault (m : Memory) : (s.setMem m).fault = s.fault := rfl
@[simp] theorem State.setMem_config (m : Memory) : (s.setMem m).config = s.config := rfl
@[simp] theorem State.setMem_host (m : Memory) : (s.setMem m).host = s.host := rfl
@[simp] theorem State.setMem_readV (m : Memory) (y : Reg) : (s.setMem m).readV y = s.readV y := rfl

/-! ### `State.setDt` -/

@[simp] theorem State.setDt_mem (b : Byte) : (s.setDt b).mem = s.mem := rfl
@[simp] theorem State.setDt_v (b : Byte) : (s.setDt b).v = s.v := rfl
@[simp] theorem State.setDt_i (b : Byte) : (s.setDt b).i = s.i := rfl
@[simp] theorem State.setDt_pc (b : Byte) : (s.setDt b).pc = s.pc := rfl
@[simp] theorem State.setDt_stack (b : Byte) : (s.setDt b).stack = s.stack := rfl
@[simp] theorem State.setDt_sp (b : Byte) : (s.setDt b).sp = s.sp := rfl
@[simp] theorem State.setDt_dt (b : Byte) : (s.setDt b).dt = b := rfl
@[simp] theorem State.setDt_st (b : Byte) : (s.setDt b).st = s.st := rfl
@[simp] theorem State.setDt_fb (b : Byte) : (s.setDt b).fb = s.fb := rfl
@[simp] theorem State.setDt_run (b : Byte) : (s.setDt b).run = s.run := rfl
@[simp] theorem State.setDt_waitReg (b : Byte) : (s.setDt b).waitReg = s.waitReg := rfl
@[simp] theorem State.setDt_fault (b : Byte) : (s.setDt b).fault = s.fault := rfl
@[simp] theorem State.setDt_config (b : Byte) : (s.setDt b).config = s.config := rfl
@[simp] theorem State.setDt_host (b : Byte) : (s.setDt b).host = s.host := rfl
@[simp] theorem State.setDt_readV (b : Byte) (y : Reg) : (s.setDt b).readV y = s.readV y := rfl

/-! ### `State.setSt` -/

@[simp] theorem State.setSt_mem (b : Byte) : (s.setSt b).mem = s.mem := rfl
@[simp] theorem State.setSt_v (b : Byte) : (s.setSt b).v = s.v := rfl
@[simp] theorem State.setSt_i (b : Byte) : (s.setSt b).i = s.i := rfl
@[simp] theorem State.setSt_pc (b : Byte) : (s.setSt b).pc = s.pc := rfl
@[simp] theorem State.setSt_stack (b : Byte) : (s.setSt b).stack = s.stack := rfl
@[simp] theorem State.setSt_sp (b : Byte) : (s.setSt b).sp = s.sp := rfl
@[simp] theorem State.setSt_dt (b : Byte) : (s.setSt b).dt = s.dt := rfl
@[simp] theorem State.setSt_st (b : Byte) : (s.setSt b).st = b := rfl
@[simp] theorem State.setSt_fb (b : Byte) : (s.setSt b).fb = s.fb := rfl
@[simp] theorem State.setSt_run (b : Byte) : (s.setSt b).run = s.run := rfl
@[simp] theorem State.setSt_waitReg (b : Byte) : (s.setSt b).waitReg = s.waitReg := rfl
@[simp] theorem State.setSt_fault (b : Byte) : (s.setSt b).fault = s.fault := rfl
@[simp] theorem State.setSt_config (b : Byte) : (s.setSt b).config = s.config := rfl
@[simp] theorem State.setSt_host (b : Byte) : (s.setSt b).host = s.host := rfl
@[simp] theorem State.setSt_readV (b : Byte) (y : Reg) : (s.setSt b).readV y = s.readV y := rfl

/-! ### `State.setFb` -/

@[simp] theorem State.setFb_mem (g : Framebuffer) : (s.setFb g).mem = s.mem := rfl
@[simp] theorem State.setFb_v (g : Framebuffer) : (s.setFb g).v = s.v := rfl
@[simp] theorem State.setFb_i (g : Framebuffer) : (s.setFb g).i = s.i := rfl
@[simp] theorem State.setFb_pc (g : Framebuffer) : (s.setFb g).pc = s.pc := rfl
@[simp] theorem State.setFb_stack (g : Framebuffer) : (s.setFb g).stack = s.stack := rfl
@[simp] theorem State.setFb_sp (g : Framebuffer) : (s.setFb g).sp = s.sp := rfl
@[simp] theorem State.setFb_dt (g : Framebuffer) : (s.setFb g).dt = s.dt := rfl
@[simp] theorem State.setFb_st (g : Framebuffer) : (s.setFb g).st = s.st := rfl
@[simp] theorem State.setFb_fb (g : Framebuffer) : (s.setFb g).fb = g := rfl
@[simp] theorem State.setFb_run (g : Framebuffer) : (s.setFb g).run = s.run := rfl
@[simp] theorem State.setFb_waitReg (g : Framebuffer) : (s.setFb g).waitReg = s.waitReg := rfl
@[simp] theorem State.setFb_fault (g : Framebuffer) : (s.setFb g).fault = s.fault := rfl
@[simp] theorem State.setFb_config (g : Framebuffer) : (s.setFb g).config = s.config := rfl
@[simp] theorem State.setFb_host (g : Framebuffer) : (s.setFb g).host = s.host := rfl
@[simp] theorem State.setFb_readV (g : Framebuffer) (y : Reg) : (s.setFb g).readV y = s.readV y := rfl

/-! ### `State.advance` -/

@[simp] theorem State.advance_mem : s.advance.mem = s.mem := rfl
@[simp] theorem State.advance_v : s.advance.v = s.v := rfl
@[simp] theorem State.advance_i : s.advance.i = s.i := rfl
@[simp] theorem State.advance_pc : s.advance.pc = s.pc + 2 := rfl
@[simp] theorem State.advance_stack : s.advance.stack = s.stack := rfl
@[simp] theorem State.advance_sp : s.advance.sp = s.sp := rfl
@[simp] theorem State.advance_dt : s.advance.dt = s.dt := rfl
@[simp] theorem State.advance_st : s.advance.st = s.st := rfl
@[simp] theorem State.advance_fb : s.advance.fb = s.fb := rfl
@[simp] theorem State.advance_run : s.advance.run = s.run := rfl
@[simp] theorem State.advance_waitReg : s.advance.waitReg = s.waitReg := rfl
@[simp] theorem State.advance_fault : s.advance.fault = s.fault := rfl
@[simp] theorem State.advance_config : s.advance.config = s.config := rfl
@[simp] theorem State.advance_host : s.advance.host = s.host := rfl
@[simp] theorem State.advance_readV (y : Reg) : s.advance.readV y = s.readV y := rfl

/-! ### `State.beginOp` -/

@[simp] theorem State.beginOp_mem : s.beginOp.mem = s.mem := rfl
@[simp] theorem State.beginOp_v : s.beginOp.v = s.v := rfl
@[simp] theorem State.beginOp_i : s.beginOp.i = s.i := rfl
@[simp] theorem State.beginOp_pc : s.beginOp.pc = s.pc := rfl
@[simp] theorem State.beginOp_stack : s.beginOp.stack = s.stack := rfl
@[simp] theorem State.beginOp_sp : s.beginOp.sp = s.sp := rfl
@[simp] theorem State.beginOp_dt : s.beginOp.dt = s.dt := rfl
@[simp] theorem State.beginOp_st : s.beginOp.st = s.st := rfl
@[simp] theorem State.beginOp_fb : s.beginOp.fb = s.fb := rfl
@[simp] theorem State.beginOp_run : s.beginOp.run = s.run := rfl
@[simp] theorem State.beginOp_waitReg : s.beginOp.waitReg = s.waitReg := rfl
@[simp] theorem State.beginOp_fault : s.beginOp.fault = s.fault := rfl
@[simp] theorem State.beginOp_config : s.beginOp.config = s.config := rfl
@[simp] theorem State.beginOp_host : s.beginOp.host =
    { s.host with agenda := s.host.agenda.tail, opCount := s.host.opCount + 1 } := rfl
@[simp] theorem State.beginOp_readV (y : Reg) : s.beginOp.readV y = s.readV y := rfl

/-! ### `State.withInputs` -/

@[simp] theorem State.withInputs_mem (inp : StepInputs) : (s.withInputs inp).mem = s.mem := rfl
@[simp] theorem State.withInputs_v (inp : StepInputs) : (s.withInputs inp).v = s.v := rfl
@[simp] theorem State.withInputs_i (inp : StepInputs) : (s.withInputs inp).i = s.i := rfl
@[simp] theorem State.withInputs_pc (inp : StepInputs) : (s.withInputs inp).pc = s.pc := rfl
@[simp] theorem State.withInputs_stack (inp : StepInputs) : (s.withInputs inp).stack = s.stack := rfl
@[simp] theorem State.withInputs_sp (inp : StepInputs) : (s.withInputs inp).sp = s.sp := rfl
@[simp] theorem State.withInputs_dt (inp : StepInputs) : (s.withInputs inp).dt = s.dt := rfl
@[simp] theorem State.withInputs_st (inp : StepInputs) : (s.withInputs inp).st = s.st := rfl
@[simp] theorem State.withInputs_fb (inp : StepInputs) : (s.withInputs inp).fb = s.fb := rfl
@[simp] theorem State.withInputs_run (inp : StepInputs) : (s.withInputs inp).run = s.run := rfl
@[simp] theorem State.withInputs_waitReg (inp : StepInputs) : (s.withInputs inp).waitReg = s.waitReg := rfl
@[simp] theorem State.withInputs_fault (inp : StepInputs) : (s.withInputs inp).fault = s.fault := rfl
@[simp] theorem State.withInputs_config (inp : StepInputs) : (s.withInputs inp).config = s.config := rfl
@[simp] theorem State.withInputs_host (inp : StepInputs) : (s.withInputs inp).host =
    { s.host with inputs := inp } := rfl
@[simp] theorem State.withInputs_readV (inp : StepInputs) (y : Reg) : (s.withInputs inp).readV y = s.readV y := rfl

/-! ### `State.resetCore` -/

@[simp] theorem State.resetCore_mem : s.resetCore.mem = [] := rfl
@[simp] theorem State.resetCore_v : s.resetCore.v = Vector.replicate 16 0 := rfl
@[simp] theorem State.resetCore_i : s.resetCore.i = 0 := rfl
@[simp] theorem State.resetCore_pc : s.resetCore.pc = 0x200 := rfl
@[simp] theorem State.resetCore_stack : s.resetCore.stack = Vector.replicate 16 0 := rfl
@[simp] theorem State.resetCore_sp : s.resetCore.sp = 0 := rfl
@[simp] theorem State.resetCore_dt : s.resetCore.dt = 0 := rfl
@[simp] theorem State.resetCore_st : s.resetCore.st = 0 := rfl
@[simp] theorem State.resetCore_fb : s.resetCore.fb = Vector.replicate 32 (Vector.replicate 64 false) := rfl
@[simp] theorem State.resetCore_run : s.resetCore.run = .running := rfl
@[simp] theorem State.resetCore_waitReg : s.resetCore.waitReg = 0 := rfl
@[simp] theorem State.resetCore_fault : s.resetCore.fault = none := rfl
@[simp] theorem State.resetCore_config : s.resetCore.config = s.config := rfl
@[simp] theorem State.resetCore_host : s.resetCore.host = s.host := rfl

/-! ### Reading a register after writing one -/

/-- Read after write: the written register holds the new value, every other its old one. -/
theorem State.readV_writeV (x y : Reg) (b : Byte) :
    (s.writeV x b).readV y = if y = x then b else s.readV y := by
  have hv : (x.val = y.val) ↔ (y = x) := by rw [Fin.ext_iff]; exact eq_comm
  simp only [State.readV, State.writeV, Fin.getElem_fin, Vector.getElem_set, hv]

@[simp] theorem State.readV_writeV_same (x : Reg) (b : Byte) : (s.writeV x b).readV x = b := by
  simp [State.readV_writeV]

theorem State.readV_writeV_ne {x y : Reg} (b : Byte) (h : y ≠ x) : (s.writeV x b).readV y = s.readV y := by
  simp [State.readV_writeV, h]

/-- The flag wins over the result in VF (00_scope.md R10). -/
theorem State.readV_writeVFlag (x y : Reg) (b flag : Byte) :
    (s.writeVFlag x b flag).readV y = if y = vf then flag else if y = x then b else s.readV y := by
  simp only [State.writeVFlag, State.readV_writeV]

@[simp] theorem State.writeVFlag_mem (x : Reg) (b flag : Byte) : (s.writeVFlag x b flag).mem = s.mem := rfl
@[simp] theorem State.writeVFlag_i (x : Reg) (b flag : Byte) : (s.writeVFlag x b flag).i = s.i := rfl
@[simp] theorem State.writeVFlag_pc (x : Reg) (b flag : Byte) : (s.writeVFlag x b flag).pc = s.pc := rfl
@[simp] theorem State.writeVFlag_stack (x : Reg) (b flag : Byte) : (s.writeVFlag x b flag).stack = s.stack := rfl
@[simp] theorem State.writeVFlag_sp (x : Reg) (b flag : Byte) : (s.writeVFlag x b flag).sp = s.sp := rfl
@[simp] theorem State.writeVFlag_dt (x : Reg) (b flag : Byte) : (s.writeVFlag x b flag).dt = s.dt := rfl
@[simp] theorem State.writeVFlag_st (x : Reg) (b flag : Byte) : (s.writeVFlag x b flag).st = s.st := rfl
@[simp] theorem State.writeVFlag_fb (x : Reg) (b flag : Byte) : (s.writeVFlag x b flag).fb = s.fb := rfl
@[simp] theorem State.writeVFlag_run (x : Reg) (b flag : Byte) : (s.writeVFlag x b flag).run = s.run := rfl
@[simp] theorem State.writeVFlag_waitReg (x : Reg) (b flag : Byte) : (s.writeVFlag x b flag).waitReg = s.waitReg := rfl
@[simp] theorem State.writeVFlag_fault (x : Reg) (b flag : Byte) : (s.writeVFlag x b flag).fault = s.fault := rfl
@[simp] theorem State.writeVFlag_config (x : Reg) (b flag : Byte) : (s.writeVFlag x b flag).config = s.config := rfl
@[simp] theorem State.writeVFlag_host (x : Reg) (b flag : Byte) : (s.writeVFlag x b flag).host = s.host := rfl

@[simp] theorem State.skipIf_mem (c : Bool) : (s.skipIf c).mem = s.mem := by cases c <;> rfl
@[simp] theorem State.skipIf_v (c : Bool) : (s.skipIf c).v = s.v := by cases c <;> rfl
@[simp] theorem State.skipIf_i (c : Bool) : (s.skipIf c).i = s.i := by cases c <;> rfl
@[simp] theorem State.skipIf_stack (c : Bool) : (s.skipIf c).stack = s.stack := by cases c <;> rfl
@[simp] theorem State.skipIf_sp (c : Bool) : (s.skipIf c).sp = s.sp := by cases c <;> rfl
@[simp] theorem State.skipIf_dt (c : Bool) : (s.skipIf c).dt = s.dt := by cases c <;> rfl
@[simp] theorem State.skipIf_st (c : Bool) : (s.skipIf c).st = s.st := by cases c <;> rfl
@[simp] theorem State.skipIf_fb (c : Bool) : (s.skipIf c).fb = s.fb := by cases c <;> rfl
@[simp] theorem State.skipIf_run (c : Bool) : (s.skipIf c).run = s.run := by cases c <;> rfl
@[simp] theorem State.skipIf_waitReg (c : Bool) : (s.skipIf c).waitReg = s.waitReg := by cases c <;> rfl
@[simp] theorem State.skipIf_fault (c : Bool) : (s.skipIf c).fault = s.fault := by cases c <;> rfl
@[simp] theorem State.skipIf_config (c : Bool) : (s.skipIf c).config = s.config := by cases c <;> rfl
@[simp] theorem State.skipIf_host (c : Bool) : (s.skipIf c).host = s.host := by cases c <;> rfl
@[simp] theorem State.skipIf_readV (c : Bool) (y : Reg) : (s.skipIf c).readV y = s.readV y := by cases c <;> rfl

/-- A taken skip adds 2, an untaken one nothing (42_conditional_skip.md R154). -/
@[simp] theorem State.skipIf_pc (c : Bool) : (s.skipIf c).pc = if c then s.pc + 2 else s.pc := by cases c <;> rfl

/-- A state is determined by its fields with MEM compared as a list and V register by register. -/
theorem State.ext_readV {s t : State} (hv : ∀ r, t.readV r = s.readV r) (h : { t with v := s.v } = s) : t = s := by
  have : t.v = s.v := by
    apply Vector.ext
    intro k hk
    exact hv ⟨k, hk⟩
  rw [← h, ← this]

end

end Sys2Proof.Machine
end

