-- ==== Sys2Proof/Laws/Ops.lean ====
section
/-! SUPPORT. What each shared operation can do, said once: the call stack, the guarded range, taking an error, the
shift source, the bulk load. -/

namespace Sys2Proof.Machine

/-! ## The call stack -/

/-- Everything a push can do (10_state.md R29). -/
theorem State.push_eq_some {s t : State} {a : Word} (h : s.push a = some t) :
    s.sp.val < 16 ∧ t.sp.val = s.sp.val + 1 ∧
      (∀ k : Fin 16, t.stack[k] = if k.val = s.sp.val then a else s.stack[k]) ∧
      { t with stack := s.stack, sp := s.sp } = s := by
  unfold State.push at h
  split at h
  · rename_i hlt
    cases h
    refine ⟨hlt, rfl, fun k => ?_, rfl⟩
    simp only [Fin.getElem_fin, Vector.getElem_set, eq_comm]
  · cases h

/-- A push is refused exactly when the stack is full. -/
theorem State.push_eq_none {s : State} {a : Word} : s.push a = none ↔ s.sp.val = 16 := by
  unfold State.push
  have := s.sp.isLt
  split <;> simp <;> omega

/-- Everything a pop can do (10_state.md R29). -/
theorem State.pop_eq_some {s t : State} {a : Word} (h : s.pop = some (a, t)) :
    t.sp.val + 1 = s.sp.val ∧ (∀ k : Fin 16, k.val = t.sp.val → a = s.stack[k]) ∧ { t with sp := s.sp } = s := by
  unfold State.pop at h
  split at h
  · rename_i hlt
    cases h
    refine ⟨by simp; omega, fun k hk => ?_, rfl⟩
    simp only at hk
    simp only [Fin.getElem_fin, hk]
  · cases h

/-- A pop is refused exactly when the stack is empty. -/
theorem State.pop_eq_none {s : State} : s.pop = none ↔ s.sp.val = 0 := by
  unfold State.pop
  split <;> simp <;> omega

/-! ## Errors and guarded ranges -/

/-- Everything a guarded range can do: the effect if the range exists, else the error (20_memory.md R67). -/
theorem withRange_eq_next {i : Instr} {len : Nat} {s k t : State} (h : withRange i len s k = .next t) :
    (inBounds s.i.toNat len = true ∧ t = k) ∨
      (inBounds s.i.toNat len = false ∧ raiseIn i .memoryOutOfBounds s = .next t) := by
  unfold withRange at h
  split at h
  · rename_i hb
    cases h
    exact .inl ⟨hb, rfl⟩
  · rename_i hb
    exact .inr ⟨by simpa using hb, h⟩

theorem withRange_of_inBounds {i : Instr} {len : Nat} {s k : State} (h : inBounds s.i.toNat len = true) :
    withRange i len s k = .next k := by simp [withRange, h]

theorem withRange_of_not_inBounds {i : Instr} {len : Nat} {s k : State} (h : inBounds s.i.toNat len = false) :
    withRange i len s k = raiseIn i .memoryOutOfBounds s := by simp [withRange, h]

/-- The state an error leaves (60_exceptions.md R246). -/
theorem raiseIn_eq (i : Instr) (e : ErrorKind) (s : State) :
    raiseIn i e s = .next { s with
      pc := s.pc - 2, run := .halted, fault := some { error := e, pc := s.pc - 2, word := encodeWord i } } := rfl

/-! ## Operands and flags -/

@[simp] theorem flagByte_toNat (c : Bool) : (flagByte c).toNat = if c then 1 else 0 := by cases c <;> rfl

@[simp] theorem zextAddr_toNat (nnn : Addr12) : (zextAddr nnn).toNat = nnn.toNat := by
  have := nnn.isLt
  simp [zextAddr]; omega

@[simp] theorem zextByte_toNat (b : Byte) : (zextByte b).toNat = b.toNat := by
  have := b.isLt
  simp [zextByte]; omega

/-- The glyph address in the spec's words (46_memory_index.md R197). -/
theorem glyphAddr_toNat (b : Byte) : (glyphAddr b).toNat = b.toNat % 16 * 5 := by
  have h : (b &&& 0x0F).toNat = b.toNat % 16 := by
    rw [BitVec.toNat_and]; exact Nat.and_two_pow_sub_one_eq_mod b.toNat 4
  unfold glyphAddr
  rw [BitVec.toNat_mul, zextByte_toNat, h]
  simp; omega

/-- The shift source as a number, by CONFIG (44_shift.md R182). -/
theorem State.shiftSource_toNat (s : State) (x y : Reg) :
    (s.shiftSource x y).toNat =
      if s.config.shiftSource = .legacy then (s.readV y).toNat else (s.readV x).toNat := by
  unfold State.shiftSource
  cases s.config.shiftSource <;> rfl

/-- The shift source by CONFIG (44_shift.md R182). -/
theorem State.shiftSource_eq (s : State) (x y : Reg) :
    s.shiftSource x y = if s.config.shiftSource = .legacy then s.readV y else s.readV x := by
  unfold State.shiftSource
  cases s.config.shiftSource <;> rfl

/-- I after a bulk move by CONFIG (46_memory_index.md R201). -/
theorem State.advancedI_eq (s : State) (x : Reg) :
    s.advancedI x = if s.config.indexAdvance = .legacy then s.i + BitVec.ofNat 16 (x.val + 1) else s.i := by
  unfold State.advancedI bulkCount
  cases s.config.indexAdvance <;> rfl

/-- The registers after a bulk load (46_memory_index.md R200). -/
theorem State.loadedRegs_get (s : State) (x r : Reg) :
    (s.loadedRegs x)[r] = if r ≤ x then s.mem.read (s.i.toNat + r.val) else s.readV r := by
  simp [State.loadedRegs]

/-- The k-th byte of a bulk store is register k (46_memory_index.md R199). -/
theorem State.storedRegs_getElem? (s : State) (x : Reg) (k : Nat) :
    (s.v.toList.take (bulkCount x))[k]? = if h : k ≤ x.val then some (s.readV ⟨k, by omega⟩) else none := by
  have hx := x.isLt
  unfold bulkCount
  split
  · rw [List.getElem?_take_of_lt (by omega), List.getElem?_eq_getElem (by simp; omega)]
    simp [State.readV]
  · rw [List.getElem?_eq_none (by simp; omega)]

@[simp] theorem State.storedRegs_length (s : State) (x : Reg) :
    (s.v.toList.take (bulkCount x)).length = x.val + 1 := by
  have hx := x.isLt
  simp [bulkCount]

end Sys2Proof.Machine
end

