-- ==== Sys2Proof/Laws/Step.lean ====
section
/-! SUPPORT. What one step can do, said once: the host's operation, then the three cases of a Step
(40_execution_cycle.md R120, R132), then what each of the two host operations does. -/

namespace Sys2Proof.Machine

/-! ## Which operation a step performs -/

theorem nextOp_of_cons {s : State} {op : HostOp} {rest : List HostOp} (h : s.host.agenda = op :: rest) :
    s.nextOp = op := by simp [State.nextOp, h]

theorem nextOp_of_nil {s : State} (h : s.host.agenda = []) : s.nextOp = Config.hostOp s.host.opCount := by
  simp [State.nextOp, h]

theorem step_of_step {s : State} {inp : StepInputs} (h : s.nextOp = .step inp) :
    step s = runStep (s.beginOp.withInputs inp) := by simp [step, hostMove, perform, h]

theorem step_of_tick {s : State} (h : s.nextOp = .tick) : step s = .next s.beginOp.tick := by
  simp [step, hostMove, perform, h]

theorem step_of_loadRom {s : State} {rom : List Byte} (h : s.nextOp = .loadRom rom) :
    step s = .next (s.beginOp.afterLoadRom rom) := by simp [step, hostMove, perform, h]

theorem step_of_reset {s : State} (h : s.nextOp = .reset) : step s = .next s.beginOp.resetCore := by
  simp [step, hostMove, perform, h]

/-- Everything a step can do: a Step with some inputs, or one of the three other host operations. -/
theorem step_cases {s t : State} (h : step s = .next t) :
    (∃ inp, s.nextOp = .step inp ∧ runStep (s.beginOp.withInputs inp) = .next t) ∨
      (s.nextOp = .tick ∧ t = s.beginOp.tick) ∨
      (∃ rom, s.nextOp = .loadRom rom ∧ t = s.beginOp.afterLoadRom rom) ∨
      (s.nextOp = .reset ∧ t = s.beginOp.resetCore) := by
  cases ho : s.nextOp with
  | step inp => rw [step_of_step ho] at h; exact .inl ⟨_, rfl, h⟩
  | tick => rw [step_of_tick ho] at h; cases h; exact .inr (.inl ⟨rfl, rfl⟩)
  | loadRom rom => rw [step_of_loadRom ho] at h; cases h; exact .inr (.inr (.inl ⟨_, rfl, rfl⟩))
  | reset => rw [step_of_reset ho] at h; cases h; exact .inr (.inr (.inr ⟨rfl, rfl⟩))

/-! ## The three cases of a Step -/

theorem runStep_of_running {s : State} (h : s.run = .running) : runStep s = runInstruction s := by simp [runStep, h]

theorem runStep_of_awaitingKey {s : State} (h : s.run = .awaitingKey) : runStep s = .next s.pollKey := by
  simp [runStep, h]

theorem runStep_of_halted {s : State} (h : s.run = .halted) : runStep s = .next s := by simp [runStep, h]

/-- Everything one instruction cycle can do (R121 to R123, 60_exceptions.md R249). -/
theorem runInstruction_cases {s t : State} (h : runInstruction s = .next t) :
    (inBounds s.pc.toNat 2 = true ∧ ∃ i, decodeWord s.fetchedWord = .ok i ∧ exec i s.advance = .next t) ∨
      (inBounds s.pc.toNat 2 = true ∧ (∃ e, decodeWord s.fetchedWord = .error e) ∧
        raise .unknownOpcode s.pc s.fetchedWord s = .next t) ∨
      (inBounds s.pc.toNat 2 = false ∧
        raise .memoryOutOfBounds s.pc (Config.unspecifiedWord s.host.opCount) s = .next t) := by
  unfold runInstruction at h
  split at h
  · rename_i hb
    split at h
    · exact .inl ⟨hb, _, ‹_›, h⟩
    · exact .inr (.inl ⟨hb, ⟨_, ‹_›⟩, h⟩)
  · rename_i hb
    exact .inr (.inr ⟨by simpa using hb, h⟩)

/-! ## Tick, LoadRom and the key poll -/

/-- A timer counts down to 0 and stays there (49_timers.md R233). -/
theorem tickTimer_toNat (b : Byte) : (tickTimer b).toNat = b.toNat - 1 := by
  unfold tickTimer
  split
  · subst_vars; rfl
  · rename_i h
    have : b.toNat ≠ 0 := fun h' => h (BitVec.eq_of_toNat_eq (by simpa using h'))
    have := b.isLt
    rw [BitVec.toNat_sub_of_le (by rw [BitVec.le_def]; simp; omega)]
    simp

/-- Everything Tick can do. -/
theorem State.tick_cases (s : State) :
    (s.run = .halted ∧ s.tick = s) ∨
      (s.run ≠ .halted ∧ s.tick = { s with dt := tickTimer s.dt, st := tickTimer s.st }) := by
  unfold State.tick
  split
  · exact .inl ⟨‹_›, rfl⟩
  · exact .inr ⟨‹_›, rfl⟩

/-- Everything a LoadRom can do to the core. -/
theorem State.afterLoadRom_cases (s : State) (rom : List Byte) :
    ((rom.length > romMax ∨ s.run = .halted) ∧ s.afterLoadRom rom = s) ∨
      (rom.length ≤ romMax ∧ s.run ≠ .halted ∧
        s.afterLoadRom rom = s.setMem (s.mem.storeBytes romBase rom)) := by
  unfold State.afterLoadRom State.loadRom
  by_cases hl : rom.length > romMax
  · rw [if_pos hl]; exact .inl ⟨.inl hl, rfl⟩
  · rw [if_neg hl]
    by_cases hr : s.run = .halted
    · rw [if_pos hr]; exact .inl ⟨.inr hr, rfl⟩
    · rw [if_neg hr]; exact .inr ⟨by omega, hr, rfl⟩

/-- Everything a key poll can do (40_execution_cycle.md R125). -/
theorem State.pollKey_cases (s : State) :
    (s.host.inputs.keyEvent = none ∧ s.pollKey = s) ∨
      (∃ k, s.host.inputs.keyEvent = some k ∧
        s.pollKey = { s.writeV s.waitReg (BitVec.ofNat 8 k.val) with run := .running }) := by
  unfold State.pollKey
  split
  · rename_i k hk; exact .inr ⟨k, hk, rfl⟩
  · exact .inl ⟨‹_›, rfl⟩

end Sys2Proof.Machine
end

