-- ==== Sys2Proof/Laws/Exec.lean ====
section
/-! SUPPORT. The one-line equation of every instruction's meaning, so that a proof about an instruction rewrites with
its own equation and never unfolds `exec`; then everything CALL, RET and the guarded instructions can do. -/

namespace Sys2Proof.Machine

@[simp] theorem exec_cls (s : State) : exec .cls s = .next (s.setFb Framebuffer.blank) := rfl
@[simp] theorem exec_jp (nnn : Addr12) (s : State) : exec (.jp nnn) s = .next (s.setPc (zextAddr nnn)) := rfl
@[simp] theorem exec_jpV0 (nnn : Addr12) (s : State) :
    exec (.jpV0 nnn) s = .next (s.setPc (zextAddr nnn + zextByte (s.readV 0))) := rfl
@[simp] theorem exec_seByte (x : Reg) (kk : Byte) (s : State) :
    exec (.seByte x kk) s = .next (s.skipIf (s.readV x == kk)) := rfl
@[simp] theorem exec_sneByte (x : Reg) (kk : Byte) (s : State) :
    exec (.sneByte x kk) s = .next (s.skipIf (s.readV x != kk)) := rfl
@[simp] theorem exec_seReg (x y : Reg) (s : State) :
    exec (.seReg x y) s = .next (s.skipIf (s.readV x == s.readV y)) := rfl
@[simp] theorem exec_sneReg (x y : Reg) (s : State) :
    exec (.sneReg x y) s = .next (s.skipIf (s.readV x != s.readV y)) := rfl
@[simp] theorem exec_ldByte (x : Reg) (kk : Byte) (s : State) : exec (.ldByte x kk) s = .next (s.writeV x kk) := rfl
@[simp] theorem exec_addByte (x : Reg) (kk : Byte) (s : State) :
    exec (.addByte x kk) s = .next (s.writeV x (s.readV x + kk)) := rfl
@[simp] theorem exec_ldReg (x y : Reg) (s : State) : exec (.ldReg x y) s = .next (s.writeV x (s.readV y)) := rfl
@[simp] theorem exec_orReg (x y : Reg) (s : State) :
    exec (.orReg x y) s = .next (s.writeV x (s.readV x ||| s.readV y)) := rfl
@[simp] theorem exec_andReg (x y : Reg) (s : State) :
    exec (.andReg x y) s = .next (s.writeV x (s.readV x &&& s.readV y)) := rfl
@[simp] theorem exec_xorReg (x y : Reg) (s : State) :
    exec (.xorReg x y) s = .next (s.writeV x (s.readV x ^^^ s.readV y)) := rfl
@[simp] theorem exec_addReg (x y : Reg) (s : State) :
    exec (.addReg x y) s = .next (s.writeVFlag x (s.readV x + s.readV y) (carryFlag (s.readV x) (s.readV y))) := rfl
@[simp] theorem exec_subReg (x y : Reg) (s : State) :
    exec (.subReg x y) s = .next (s.writeVFlag x (s.readV x - s.readV y) (noBorrowFlag (s.readV x) (s.readV y))) := rfl
@[simp] theorem exec_subnReg (x y : Reg) (s : State) :
    exec (.subnReg x y) s = .next (s.writeVFlag x (s.readV y - s.readV x) (noBorrowFlag (s.readV y) (s.readV x))) := rfl
@[simp] theorem exec_shr (x y : Reg) (s : State) :
    exec (.shr x y) s = .next (s.writeVFlag x (s.shiftSource x y >>> 1) (shrFlag (s.shiftSource x y))) := rfl
@[simp] theorem exec_shl (x y : Reg) (s : State) :
    exec (.shl x y) s = .next (s.writeVFlag x (s.shiftSource x y <<< 1) (shlFlag (s.shiftSource x y))) := rfl
@[simp] theorem exec_rnd (x : Reg) (kk : Byte) (s : State) :
    exec (.rnd x kk) s = .next (s.writeV x (s.host.inputs.randByte &&& kk)) := rfl
@[simp] theorem exec_ldI (nnn : Addr12) (s : State) : exec (.ldI nnn) s = .next (s.setI (zextAddr nnn)) := rfl
@[simp] theorem exec_addI (x : Reg) (s : State) :
    exec (.addI x) s = .next (s.setI (s.i + zextByte (s.readV x))) := rfl
@[simp] theorem exec_ldF (x : Reg) (s : State) : exec (.ldF x) s = .next (s.setI (glyphAddr (s.readV x))) := rfl
@[simp] theorem exec_skp (x : Reg) (s : State) : exec (.skp x) s = .next (s.skipIf (s.keyPressed x)) := rfl
@[simp] theorem exec_sknp (x : Reg) (s : State) : exec (.sknp x) s = .next (s.skipIf (!s.keyPressed x)) := rfl
@[simp] theorem exec_ldVxK (x : Reg) (s : State) :
    exec (.ldVxK x) s = .next ({ s with run := .awaitingKey, waitReg := x }) := rfl
@[simp] theorem exec_ldVxDt (x : Reg) (s : State) : exec (.ldVxDt x) s = .next (s.writeV x s.dt) := rfl
@[simp] theorem exec_ldDtVx (x : Reg) (s : State) : exec (.ldDtVx x) s = .next (s.setDt (s.readV x)) := rfl
@[simp] theorem exec_ldStVx (x : Reg) (s : State) : exec (.ldStVx x) s = .next (s.setSt (s.readV x)) := rfl
@[simp] theorem exec_sys (nnn : Addr12) (s : State) :
    exec (.sys nnn) s = raiseIn (.sys nnn) .unsupportedOpcode s := rfl
@[simp] theorem exec_ldB (x : Reg) (s : State) :
    exec (.ldB x) s = withRange (.ldB x) 3 s (s.setMem (s.mem.storeBytes s.i.toNat (bcdDigits (s.readV x)))) := rfl
@[simp] theorem exec_storeRegs (x : Reg) (s : State) :
    exec (.storeRegs x) s = withRange (.storeRegs x) (bulkCount x) s
      ((s.setMem (s.mem.storeBytes s.i.toNat (s.v.toList.take (bulkCount x)))).setI (s.advancedI x)) := rfl
@[simp] theorem exec_loadRegs (x : Reg) (s : State) :
    exec (.loadRegs x) s = withRange (.loadRegs x) (bulkCount x) s
      ((s.setV (s.loadedRegs x)).setI (s.advancedI x)) := rfl
@[simp] theorem exec_drw (x y : Reg) (n : Nibble) (s : State) :
    exec (.drw x y n) s = withRange (.drw x y n) n.toNat s
      ((s.setFb (s.drawn x y n).1).writeV vf (collisionFlag (s.drawn x y n).2)) := rfl

/-- Everything CALL can do (41_control_flow.md R141). -/
theorem exec_call_cases {nnn : Addr12} {s t : State} (h : exec (.call nnn) s = .next t) :
    (∃ u, s.push s.pc = some u ∧ t = u.setPc (zextAddr nnn)) ∨
      (s.sp.val = 16 ∧ raiseIn (.call nnn) .stackOverflow s = .next t) := by
  change execCall nnn s = .next t at h
  unfold execCall at h
  split at h
  · exact .inr ⟨State.push_eq_none.mp ‹_›, h⟩
  · cases h; exact .inl ⟨_, ‹_›, rfl⟩

/-- Everything RET can do (41_control_flow.md R142). -/
theorem exec_ret_cases {s t : State} (h : exec .ret s = .next t) :
    (∃ a u, s.pop = some (a, u) ∧ t = u.setPc a) ∨
      (s.sp.val = 0 ∧ raiseIn .ret .stackUnderflow s = .next t) := by
  change execRet s = .next t at h
  unfold execRet at h
  split at h
  · exact .inr ⟨State.pop_eq_none.mp ‹_›, h⟩
  · cases h; exact .inl ⟨_, _, ‹_›, rfl⟩

end Sys2Proof.Machine
end

