-- ==== Sys2Proof/Laws/Frames.lean ====
section
/-! SUPPORT. What every instruction keeps, said once for all 35: an instruction raises an error, is CALL or RET, or
leaves the call stack, FAULT, CONFIG and the host's side alone; and no instruction breaks the form of memory. -/

namespace Sys2Proof.Machine

/-- What an instruction that is neither CALL nor RET and raises nothing leaves alone; RUN changes only by LD Vx,K. -/
structure Quiet (i : Instr) (s t : State) : Prop where
  stack : t.stack = s.stack
  sp : t.sp = s.sp
  fault : t.fault = s.fault
  config : t.config = s.config
  host : t.host = s.host
  run : t.run = s.run ∨ ∃ x, i = .ldVxK x ∧ t.run = .awaitingKey ∧ t.waitReg = x

/-- The two outcomes of a guarded instruction. -/
theorem withRange_quiet {i : Instr} {len : Nat} {s k t : State} (h : withRange i len s k = .next t)
    (hk : Quiet i s k) : (∃ e, raiseIn i e s = .next t) ∨ Quiet i s t := by
  rcases withRange_eq_next h with ⟨-, rfl⟩ | ⟨-, h⟩
  · exact .inr hk
  · exact .inl ⟨_, h⟩

/-- The four things an instruction can do. -/
theorem exec_cases {i : Instr} {s t : State} (h : exec i s = .next t) :
    (∃ e, raiseIn i e s = .next t) ∨ (∃ nnn, i = .call nnn) ∨ i = .ret ∨ Quiet i s t := by
  have guarded : ∀ {len : Nat} {k : State}, withRange i len s k = .next t → Quiet i s k →
      (∃ e, raiseIn i e s = .next t) ∨ (∃ nnn, i = .call nnn) ∨ i = .ret ∨ Quiet i s t := fun h hk =>
    (withRange_quiet h hk).imp id fun hq => .inr (.inr hq)
  cases i
  case ret => exact .inr (.inr (.inl rfl))
  case call nnn => exact .inr (.inl ⟨_, rfl⟩)
  case sys nnn => exact .inl ⟨_, h⟩
  case ldVxK x => cases h; exact .inr (.inr (.inr ⟨rfl, rfl, rfl, rfl, rfl, .inr ⟨_, rfl, rfl, rfl⟩⟩))
  case ldB x => exact guarded (by rw [exec_ldB] at h; exact h) (by constructor <;> simp)
  case storeRegs x => exact guarded (by rw [exec_storeRegs] at h; exact h) (by constructor <;> simp)
  case loadRegs x => exact guarded (by rw [exec_loadRegs] at h; exact h) (by constructor <;> simp)
  case drw x y n => exact guarded (by rw [exec_drw] at h; exact h) (by constructor <;> simp)
  all_goals (cases h; refine .inr (.inr (.inr ?_)); constructor <;> simp)

/-- An error leaves memory alone. -/
theorem raiseIn_mem {i : Instr} {e : ErrorKind} {s t : State} (h : raiseIn i e s = .next t) : t.mem = s.mem := by
  rw [raiseIn_eq] at h
  cases h
  rfl

/-- No instruction breaks the canonical form of memory. -/
theorem exec_mem_wf {i : Instr} {s t : State} (hm : s.mem.wf = true) (h : exec i s = .next t) : t.mem.wf = true := by
  have guarded : ∀ {j : Instr} {len : Nat} {k : State}, withRange j len s k = .next t →
      (inBounds s.i.toNat len = true → k.mem.wf = true) → t.mem.wf = true := fun h hk => by
    rcases withRange_eq_next h with ⟨hb, rfl⟩ | ⟨-, h⟩
    · exact hk hb
    · rw [raiseIn_mem h]; exact hm
  cases i
  case ret =>
    rcases exec_ret_cases h with ⟨_, u, h1, rfl⟩ | ⟨-, h1⟩
    · have hu := congrArg State.mem (State.pop_eq_some h1).2.2
      change u.mem = s.mem at hu
      rw [State.setPc_mem, hu]; exact hm
    · rw [raiseIn_mem h1]; exact hm
  case call nnn =>
    rcases exec_call_cases h with ⟨u, h1, rfl⟩ | ⟨-, h1⟩
    · have hu := congrArg State.mem (State.push_eq_some h1).2.2.2
      change u.mem = s.mem at hu
      rw [State.setPc_mem, hu]; exact hm
    · rw [raiseIn_mem h1]; exact hm
  case sys nnn => rw [raiseIn_mem h]; exact hm
  case ldB x =>
    refine guarded (by rw [exec_ldB] at h; exact h) fun hb => ?_
    rw [inBounds_iff] at hb
    exact Memory.wf_storeBytes (by simp [bcdDigits, memSize]; omega) hm
  case storeRegs x =>
    refine guarded (by rw [exec_storeRegs] at h; exact h) fun hb => ?_
    rw [inBounds_iff] at hb
    rw [State.setI_mem, State.setMem_mem]
    exact Memory.wf_storeBytes
      (by rw [State.storedRegs_length]; unfold bulkCount at hb; unfold memSize; omega) hm
  case loadRegs x => exact guarded (by rw [exec_loadRegs] at h; exact h) fun _ => by simpa using hm
  case drw x y n => exact guarded (by rw [exec_drw] at h; exact h) fun _ => by simpa using hm
  all_goals (cases h; simpa using hm)

end Sys2Proof.Machine
end

