-- ==== Sys2Proof/Laws/PerInstr.lean ====
section
/-! SUPPORT. For every instruction: its word matches its row of the opcode table, that is word AND mask = match
(30_encoding.md R94; spec/opcode_table.json). -/

namespace Sys2Proof.Laws

/-! ## The table's match and mask, by format -/

theorem and_ones_nibble (b : BitVec 4) : b &&& 0xF#4 = b := BitVec.and_allOnes

theorem and_ones_byte (b : BitVec 8) : b &&& 0xFF#8 = b := BitVec.and_allOnes

theorem and_mask_formatA (op : BitVec 4) (nnn : Addr12) : formatA op nnn &&& 0xF000 = formatA op 0 := by
  unfold formatA
  rw [show (0xF000 : Word) = (0xF#4 ++ 0x000#12) from rfl, BitVec.and_append]
  simp [and_ones_nibble]

theorem and_mask_formatXK (op : BitVec 4) (x : Reg) (kk : Byte) : formatXK op x kk &&& 0xF000 = formatXK op 0 0 := by
  unfold formatXK
  rw [show (0xF000 : Word) = (0xF#4 ++ 0x0#4 ++ 0x00#8) from rfl, BitVec.and_append, BitVec.and_append]
  simp [regBits, and_ones_nibble]

theorem and_mask_formatXF (op : BitVec 4) (x : Reg) (kk : Byte) : formatXK op x kk &&& 0xF0FF = formatXK op 0 kk := by
  unfold formatXK
  rw [show (0xF0FF : Word) = (0xF#4 ++ 0x0#4 ++ 0xFF#8) from rfl, BitVec.and_append, BitVec.and_append]
  simp [regBits, and_ones_nibble, and_ones_byte]

theorem and_mask_formatXY (op : BitVec 4) (x y : Reg) (f : Nibble) :
    formatXY op x y f &&& 0xF00F = formatXY op 0 0 f := by
  unfold formatXY
  rw [show (0xF00F : Word) = (0xF#4 ++ 0x0#4 ++ 0x0#4 ++ 0xF#4) from rfl, BitVec.and_append,
    BitVec.and_append, BitVec.and_append]
  simp [regBits, and_ones_nibble]

theorem and_mask_formatXYN (op : BitVec 4) (x y : Reg) (n : Nibble) :
    formatXY op x y n &&& 0xF000 = formatXY op 0 0 0 := by
  unfold formatXY
  rw [show (0xF000 : Word) = (0xF#4 ++ 0x0#4 ++ 0x0#4 ++ 0x0#4) from rfl, BitVec.and_append,
    BitVec.and_append, BitVec.and_append]
  simp [regBits, and_ones_nibble]

/-- The row of the opcode table of each instruction: (match, mask). -/
def MatchesTable.row : Instr → Word × Word
  | .cls => (0x00E0, 0xFFFF)
  | .ret => (0x00EE, 0xFFFF)
  | .sys _ => (0x0000, 0xF000)
  | .jp _ => (0x1000, 0xF000)
  | .call _ => (0x2000, 0xF000)
  | .seByte _ _ => (0x3000, 0xF000)
  | .sneByte _ _ => (0x4000, 0xF000)
  | .seReg _ _ => (0x5000, 0xF00F)
  | .ldByte _ _ => (0x6000, 0xF000)
  | .addByte _ _ => (0x7000, 0xF000)
  | .ldReg _ _ => (0x8000, 0xF00F)
  | .orReg _ _ => (0x8001, 0xF00F)
  | .andReg _ _ => (0x8002, 0xF00F)
  | .xorReg _ _ => (0x8003, 0xF00F)
  | .addReg _ _ => (0x8004, 0xF00F)
  | .subReg _ _ => (0x8005, 0xF00F)
  | .shr _ _ => (0x8006, 0xF00F)
  | .subnReg _ _ => (0x8007, 0xF00F)
  | .shl _ _ => (0x800E, 0xF00F)
  | .sneReg _ _ => (0x9000, 0xF00F)
  | .ldI _ => (0xA000, 0xF000)
  | .jpV0 _ => (0xB000, 0xF000)
  | .rnd _ _ => (0xC000, 0xF000)
  | .drw _ _ _ => (0xD000, 0xF000)
  | .skp _ => (0xE09E, 0xF0FF)
  | .sknp _ => (0xE0A1, 0xF0FF)
  | .ldVxDt _ => (0xF007, 0xF0FF)
  | .ldVxK _ => (0xF00A, 0xF0FF)
  | .ldDtVx _ => (0xF015, 0xF0FF)
  | .ldStVx _ => (0xF018, 0xF0FF)
  | .addI _ => (0xF01E, 0xF0FF)
  | .ldF _ => (0xF029, 0xF0FF)
  | .ldB _ => (0xF033, 0xF0FF)
  | .storeRegs _ => (0xF055, 0xF0FF)
  | .loadRegs _ => (0xF065, 0xF0FF)

/-- The instruction's word is one of its row's. -/
def MatchesTable.Statement (i : Instr) : Prop :=
  encodeWord i &&& (MatchesTable.row i).2 = (MatchesTable.row i).1

namespace MatchesTable

theorem cls : Statement .cls := rfl
theorem ret : Statement .ret := rfl
theorem sys (nnn : Addr12) : Statement (.sys nnn) := and_mask_formatA _ nnn
theorem jp (nnn : Addr12) : Statement (.jp nnn) := and_mask_formatA _ nnn
theorem call (nnn : Addr12) : Statement (.call nnn) := and_mask_formatA _ nnn
theorem seByte (x : Reg) (kk : Byte) : Statement (.seByte x kk) := and_mask_formatXK _ x kk
theorem sneByte (x : Reg) (kk : Byte) : Statement (.sneByte x kk) := and_mask_formatXK _ x kk
theorem seReg (x y : Reg) : Statement (.seReg x y) := and_mask_formatXY _ x y _
theorem ldByte (x : Reg) (kk : Byte) : Statement (.ldByte x kk) := and_mask_formatXK _ x kk
theorem addByte (x : Reg) (kk : Byte) : Statement (.addByte x kk) := and_mask_formatXK _ x kk
theorem ldReg (x y : Reg) : Statement (.ldReg x y) := and_mask_formatXY _ x y _
theorem orReg (x y : Reg) : Statement (.orReg x y) := and_mask_formatXY _ x y _
theorem andReg (x y : Reg) : Statement (.andReg x y) := and_mask_formatXY _ x y _
theorem xorReg (x y : Reg) : Statement (.xorReg x y) := and_mask_formatXY _ x y _
theorem addReg (x y : Reg) : Statement (.addReg x y) := and_mask_formatXY _ x y _
theorem subReg (x y : Reg) : Statement (.subReg x y) := and_mask_formatXY _ x y _
theorem shr (x y : Reg) : Statement (.shr x y) := and_mask_formatXY _ x y _
theorem subnReg (x y : Reg) : Statement (.subnReg x y) := and_mask_formatXY _ x y _
theorem shl (x y : Reg) : Statement (.shl x y) := and_mask_formatXY _ x y _
theorem sneReg (x y : Reg) : Statement (.sneReg x y) := and_mask_formatXY _ x y _
theorem ldI (nnn : Addr12) : Statement (.ldI nnn) := and_mask_formatA _ nnn
theorem jpV0 (nnn : Addr12) : Statement (.jpV0 nnn) := and_mask_formatA _ nnn
theorem rnd (x : Reg) (kk : Byte) : Statement (.rnd x kk) := and_mask_formatXK _ x kk
theorem drw (x y : Reg) (n : Nibble) : Statement (.drw x y n) := and_mask_formatXYN _ x y n
theorem skp (x : Reg) : Statement (.skp x) := and_mask_formatXF _ x _
theorem sknp (x : Reg) : Statement (.sknp x) := and_mask_formatXF _ x _
theorem ldVxDt (x : Reg) : Statement (.ldVxDt x) := and_mask_formatXF _ x _
theorem ldVxK (x : Reg) : Statement (.ldVxK x) := and_mask_formatXF _ x _
theorem ldDtVx (x : Reg) : Statement (.ldDtVx x) := and_mask_formatXF _ x _
theorem ldStVx (x : Reg) : Statement (.ldStVx x) := and_mask_formatXF _ x _
theorem addI (x : Reg) : Statement (.addI x) := and_mask_formatXF _ x _
theorem ldF (x : Reg) : Statement (.ldF x) := and_mask_formatXF _ x _
theorem ldB (x : Reg) : Statement (.ldB x) := and_mask_formatXF _ x _
theorem storeRegs (x : Reg) : Statement (.storeRegs x) := and_mask_formatXF _ x _
theorem loadRegs (x : Reg) : Statement (.loadRegs x) := and_mask_formatXF _ x _

end MatchesTable

end Sys2Proof.Laws
end

