-- ==== Sys2Proof/Tests/Slice0.lean ====
section
/-! SUPPORT. Tests: ill-formed terms, every row's word decoded, small steps whose expected results are the vectors of
95_test_vectors.md (each test names its vector), and a witness for the hypotheses of every statement that has some. -/

namespace Sys2Proof.Tests

open Sys2Proof.Machine Sys2Proof.Claims

/-! ## Helpers -/

/-- No key, no key event, random byte 0. -/
def quiet : StepInputs := { keysDown := Vector.replicate 16 false, keyEvent := none, randByte := 0 }

/-- Reset of a core built with `c`, and Steps with the inputs `inp` lined up. -/
def start (c : CoreConfig) (inp : StepInputs) : State :=
  { State.reset with config := c, host := { agenda := [.step inp, .step inp], inputs := quiet, opCount := 0 } }

def legacy : CoreConfig := { shiftSource := .legacy, indexAdvance := .legacy }

def modern : CoreConfig := { shiftSource := .modern, indexAdvance := .modern }

/-- The usual start: legacy flags, quiet inputs. -/
def base : State := start legacy quiet

/-- `s` with some registers written. -/
def regs (s : State) (vs : List (Reg × Byte)) : State := vs.foldl (fun t p => t.writeV p.1 p.2) s

/-- `s` with bytes stored from an address on. -/
def bytes (s : State) (a : Nat) (bs : List Byte) : State := s.setMem (s.mem.storeBytes a bs)

/-- `s` with the host's next operation in front of the others. -/
def host (op : HostOp) (s : State) : State := { s with host := { s.host with agenda := op :: s.host.agenda } }

/-- The next state, if the outcome is one. -/
def after : Host.Outcome State Fault Refusal → Option State
  | .next t => some t
  | .fault _ | .refused _ => none

/-- The next state of an outcome that has one. -/
def nextOf (o : Host.Outcome State Fault Refusal) : State := (after o).getD State.reset

theorem eq_nextOf {o : Host.Outcome State Fault Refusal} (h : (after o).isSome = true) : o = .next (nextOf o) := by
  cases o with
  | next t => rfl
  | fault r => cases h
  | refused r => cases h

/-- The state after the word `w` is placed at pc and one step is taken. -/
def run (w : Nat) (s : State) : State := nextOf (step (s.withFetchWord 16 w))

/-! ## Ill-formed terms -/

theorem test_sys_of_cls_word_refused : (Instr.sys 0x0E0).wellFormed = false := by decide
theorem test_sys_of_ret_word_refused : (Instr.sys 0x0EE).wellFormed = false := by decide

/-! ## Every row's word, written out from its pattern (30_encoding.md R94) -/

theorem test_decode_control :
    [0x00E0, 0x00EE, 0x0FED, 0x1ABC, 0x2ABC, 0xB30D].map (decodeTableWord 16) =
      [some .cls, some .ret, some (.sys 0xFED), some (.jp 0xABC), some (.call 0xABC), some (.jpV0 0x30D)] := by decide

theorem test_decode_skips :
    [0x3A42, 0x4B43, 0x5120, 0x9EF0].map (decodeTableWord 16) =
      [some (.seByte 10 0x42), some (.sneByte 11 0x43), some (.seReg 1 2), some (.sneReg 14 15)] := by decide

theorem test_decode_arithmetic :
    [0x6A42, 0x7A01, 0x8120, 0x8121, 0x8122, 0x8123, 0x8124, 0x8125, 0x8127].map (decodeTableWord 16) =
      [some (.ldByte 10 0x42), some (.addByte 10 0x01), some (.ldReg 1 2), some (.orReg 1 2), some (.andReg 1 2),
       some (.xorReg 1 2), some (.addReg 1 2), some (.subReg 1 2), some (.subnReg 1 2)] := by decide

theorem test_decode_shift_random_display :
    [0x8126, 0x812E, 0xC10F, 0xD125].map (decodeTableWord 16) =
      [some (.shr 1 2), some (.shl 1 2), some (.rnd 1 0x0F), some (.drw 1 2 5)] := by decide

theorem test_decode_memory_index :
    [0xA2F0, 0xF11E, 0xF129, 0xF333, 0xF255, 0xF265].map (decodeTableWord 16) =
      [some (.ldI 0x2F0), some (.addI 1), some (.ldF 1), some (.ldB 3), some (.storeRegs 2), some (.loadRegs 2)] := by
  decide

theorem test_decode_keys_timers :
    [0xE19E, 0xE1A1, 0xF30A, 0xF107, 0xF115, 0xF118].map (decodeTableWord 16) =
      [some (.skp 1), some (.sknp 1), some (.ldVxK 3), some (.ldVxDt 1), some (.ldDtVx 1), some (.ldStVx 1)] := by decide

/-- Vectors UNK-1 to UNK-12 of section 2.10. -/
theorem test_decode_unknown :
    [0x5121, 0x512F, 0x8128, 0x812F, 0x812D, 0x9121, 0xE19F, 0xE100, 0xF100, 0xF1FF, 0xF175, 0xF130].map
      (decodeTableWord 16) = List.replicate 12 none := by decide

/-- Bytes of words written out: most significant first (20_memory.md R63). -/
theorem test_encode_bytes : encode (.drw 1 2 5) = [0xD1, 0x25] ∧ encode (.sys 0x123) = [0x01, 0x23] := by decide

/-- One byte is no instruction (30_encoding.md R90). -/
theorem test_decode_needs_two_bytes : decode [0x12] = .error .tooFewBytes := rfl

/-! ## Control flow (vectors of section 2.1) -/

theorem test_jp_1 : (run 0x1ABC base).pc = 0x0ABC := by decide
theorem test_jp_4 : (fun t => (t.readV 1, t.pc)) (run 0x612A (base.setPc 0x0203)) = (0x2A, 0x0205) := by decide
theorem test_call_2 :
    (fun t => (t.pc, t.sp, t.stack[15])) (run 0x2ABC { base with sp := 15, pc := 0x400 }) = (0x0ABC, 16, 0x0402) := by
  decide
theorem test_call_3 :
    (fun t => (t.pc, t.sp, t.run, t.fault)) (run 0x2ABC { base with sp := 16, pc := 0x400 }) =
      (0x0400, 16, .halted, some { error := .stackOverflow, pc := 0x0400, word := 0x2ABC }) := by decide
theorem test_ret_4 :
    (fun t => (t.pc, t.sp)) (run 0x00EE { base with sp := 1, stack := Vector.replicate 16 0x1000 }) =
      (0x1000, 0) := by decide
theorem test_ret_2 :
    (fun t => (t.pc, t.run, t.fault)) (run 0x00EE base) =
      (0x0200, .halted, some { error := .stackUnderflow, pc := 0x0200, word := 0x00EE }) := by decide
theorem test_jpV0_2 : (run 0xBFFF (regs base [(0, 0xFF)])).pc = 0x10FE := by decide
theorem test_jpV0_4 : (run 0xB300 (regs base [(3, 0x44), (0, 0x02)])).pc = 0x0302 := by decide
theorem test_sys_4 :
    (fun t => (t.pc, t.run, t.fault)) (run 0x00EF base) =
      (0x0200, .halted, some { error := .unsupportedOpcode, pc := 0x0200, word := 0x00EF }) := by decide

/-! ## Skips (vectors of section 2.2) -/

theorem test_se_5 : (run 0x3000 (base.setPc 0x0FFE)).pc = 0x1002 := by decide
theorem test_se_6 : (run 0x30FF (regs base [(0, 0x7F)])).pc = 0x0202 := by decide
theorem test_sne_1 : (run 0x4A42 (regs base [(10, 0x42)])).pc = 0x0202 := by decide
theorem test_sne_2 : (run 0x4A42 (regs base [(10, 0x43)])).pc = 0x0204 := by decide
theorem test_ser_1 : (run 0x5120 (regs base [(1, 7), (2, 7)])).pc = 0x0204 := by decide
theorem test_ser_2 : (run 0x5120 (regs base [(1, 7), (2, 8)])).pc = 0x0202 := by decide
theorem test_sner_2 : (run 0x9120 (regs base [(1, 7), (2, 8)])).pc = 0x0204 := by decide
theorem test_sner_3 : (run 0x9330 (regs base [(3, 0x99)])).pc = 0x0202 := by decide

/-! ## Load and arithmetic (vectors of section 2.3) -/

theorem test_ldi_1 : (fun t => (t.readV 10, t.pc)) (run 0x6A42 base) = (0x42, 0x0202) := by decide
theorem test_addi_3 :
    (fun t => (t.readV 10, t.readV vf)) (run 0x7A02 (regs base [(10, 0xFF), (vf, 1)])) = (0x01, 0x01) := by decide
theorem test_ldr_1 :
    (fun t => (t.readV 1, t.readV 2)) (run 0x8120 (regs base [(1, 0x11), (2, 0x22)])) = (0x22, 0x22) := by decide
theorem test_or_1 :
    (fun t => (t.readV 1, t.readV vf)) (run 0x8121 (regs base [(1, 0xF0), (2, 0x0F), (vf, 1)])) = (0xFF, 1) := by decide
theorem test_and_1 :
    (fun t => (t.readV 1, t.readV vf)) (run 0x8122 (regs base [(1, 0xF0), (2, 0x3C), (vf, 1)])) = (0x30, 1) := by decide
theorem test_xor_1 :
    (fun t => (t.readV 1, t.readV vf)) (run 0x8123 (regs base [(1, 0xF0), (2, 0x3C), (vf, 1)])) = (0xCC, 1) := by decide
theorem test_add_4 :
    (fun t => (t.readV 1, t.readV vf)) (run 0x8124 (regs base [(1, 0x80), (2, 0x7F), (vf, 1)])) = (0xFF, 0) := by decide
theorem test_add_8 :
    (fun t => (t.readV 1, t.readV vf)) (run 0x81F4 (regs base [(vf, 1), (1, 0xFF)])) = (0x00, 1) := by decide
theorem test_sub_2 :
    (fun t => (t.readV 1, t.readV vf)) (run 0x8125 (regs base [(1, 0x10), (2, 0x30)])) = (0xE0, 0) := by decide
theorem test_sub_6 : (run 0x8F15 (regs base [(vf, 0x10), (1, 0x20)])).readV vf = 0 := by decide
theorem test_subn_1 :
    (fun t => (t.readV 1, t.readV vf)) (run 0x8127 (regs base [(1, 0x10), (2, 0x30)])) = (0x20, 1) := by decide
theorem test_subn_2 :
    (fun t => (t.readV 1, t.readV vf)) (run 0x8127 (regs base [(1, 0x30), (2, 0x10)])) = (0xE0, 0) := by decide

/-! ## Shifts and random (vectors of sections 2.4, 2.5) -/

theorem test_shr_1 :
    (fun t => (t.readV 1, t.readV vf)) (run 0x8126 (regs (start modern quiet) [(1, 0x05), (2, 0xF0)])) = (0x02, 1) := by
  decide
theorem test_shr_2 :
    (fun t => (t.readV 1, t.readV 2, t.readV vf)) (run 0x8126 (regs base [(1, 0x05), (2, 0xF0)])) = (0x78, 0xF0, 0) := by
  decide
theorem test_shl_2 :
    (fun t => (t.readV 1, t.readV vf)) (run 0x812E (regs base [(1, 0x05), (2, 0xF0)])) = (0xE0, 1) := by decide
theorem test_shl_4 :
    (fun t => (t.readV 1, t.readV vf)) (run 0x812E (regs (start modern quiet) [(1, 0xFF), (2, 0x40)])) = (0xFE, 1) := by
  decide
theorem test_rnd_1 :
    (run 0xC10F (regs (start legacy { quiet with randByte := 0xA7 }) [(1, 0xEE)])).readV 1 = 0x07 := by decide
theorem test_rnd_4 :
    (run 0xCFF0 (regs (start legacy { quiet with randByte := 0x3C }) [(vf, 0x01)])).readV vf = 0x30 := by decide

/-! ## Address register and memory (vectors of section 2.6) -/

theorem test_lda_2 : (run 0xAFFF (base.setI 0x1234)).i = 0x0FFF := by decide
/-- R196: modulo 65536. -/
theorem test_add_i_wraps : (run 0xF11E (regs (base.setI 0xFFFF) [(1, 0x02), (vf, 5)])).i = 0x0001 := by decide
theorem test_ldf_3 : (run 0xF129 (regs base [(1, 0x1A)])).i = 0x0032 := by decide
theorem test_ldf_4 : (run 0xF129 (regs base [(1, 0xFF)])).i = 0x004B := by decide
theorem test_bcd_5 :
    (fun t => (t.i, t.mem.readBytes 0x0FFD 3)) (run 0xF333 (regs (base.setI 0x0FFD) [(3, 0x64)])) =
      (0x0FFD, [1, 0, 0]) := by decide
theorem test_bcd_8 :
    (fun t => (t.pc, t.mem.read 0, t.fault)) (run 0xF333 (regs (base.setI 0xFFFF) [(3, 0x7B)])) =
      (0x0200, 0xF0, some { error := .memoryOutOfBounds, pc := 0x0200, word := 0xF333 }) := by decide
theorem test_st_2 :
    (fun t => (t.i, t.mem.readBytes 0x0400 4))
      (run 0xF255 (regs (base.setI 0x0400) [(0, 0x11), (1, 0x22), (2, 0x33), (3, 0x44)])) =
      (0x0403, [0x11, 0x22, 0x33, 0x00]) := by decide
theorem test_st_9 :
    (fun t => (t.mem.read 4095, t.i, t.fault)) (run 0xF155 (regs (base.setI 0x0FFF) [(0, 0x77)])) =
      (0x00, 0x0FFF, some { error := .memoryOutOfBounds, pc := 0x0200, word := 0xF155 }) := by decide
theorem test_ldm_1 :
    (fun t => (t.readV 0, t.readV 2, t.readV 3, t.i))
      (run 0xF265 (regs (bytes ((start modern quiet).setI 0x0400) 0x0400 [0x11, 0x22, 0x33, 0x44]) [(3, 0x99)])) =
      (0x11, 0x33, 0x99, 0x0400) := by decide
theorem test_ldm_6 :
    (fun t => (t.readV 0, t.fault)) (run 0xFF65 (regs (base.setI 0x0FF1) [(0, 0x55)])) =
      (0x55, some { error := .memoryOutOfBounds, pc := 0x0200, word := 0xFF65 }) := by decide

/-! ## Display (vectors of section 2.7) -/

/-- Some pixels. -/
def pixels (t : State) (ps : List (Nat × Nat)) : List Bool := ps.map fun p => t.fb.pixel p.1 p.2

set_option maxRecDepth 4000 in
theorem test_cls_1 :
    (fun t => (pixels t [(0, 0), (31, 63)], t.readV vf))
      (run 0x00E0 (regs (base.setFb ((base.fb.setPixel 0 0 true).setPixel 31 63 true)) [(vf, 1)])) =
      ([false, false], 1) := by decide
set_option maxRecDepth 4000 in
theorem test_drw_2 :
    (fun t => (t.readV vf, pixels t [(1, 8), (2, 7), (2, 8), (5, 9), (1, 7), (6, 8)]))
      (run 0xD125 (regs (base.setI 5) [(1, 0x46), (2, 0x21)])) =
      (0, [true, true, true, true, false, false]) := by decide
set_option maxRecDepth 4000 in
theorem test_drw_18 :
    (fun t => (t.readV vf, pixels t [(0, 60), (0, 62), (0, 63), (0, 0)]))
      (run 0xD121 (regs (bytes ((base.setI 0x300).setFb ((base.fb.setPixel 0 0 true).setPixel 0 63 true)) 0x300 [0xFF])
        [(1, 0x3C)])) = (1, [true, true, false, true]) := by decide

/-! ## Keyboard, timers, the cycle (vectors of sections 2.8 to 2.11) -/

/-- Quiet inputs with the key 5 down. -/
def key5 : StepInputs := { quiet with keysDown := (Vector.replicate 16 false).set 5 true }

theorem test_skp_1 : (run 0xE19E (regs (start legacy key5) [(1, 5)])).pc = 0x0204 := by decide
theorem test_skp_3 :
    (run 0xE19E (regs (start legacy { quiet with keysDown := Vector.replicate 16 true }) [(1, 0x15)])).pc = 0x0202 := by
  decide
theorem test_sknp_1 : (run 0xE1A1 (regs (start legacy key5) [(1, 5)])).pc = 0x0202 := by decide
theorem test_sknp_2 : (run 0xE1A1 (regs base [(1, 5)])).pc = 0x0204 := by decide
theorem test_key_1 :
    (fun t => (t.pc, t.run, t.waitReg, t.readV 3)) (run 0xF30A base) = (0x0202, .awaitingKey, 3, 0) := by decide
theorem test_key_5 :
    (fun t => (t.readV 1, t.pc, t.run))
      (nextOf (step { start legacy { quiet with keyEvent := some 2 } with
        pc := 0x0FFF, run := .awaitingKey, waitReg := 1 })) = (0x02, 0x0FFF, .running) := by decide
theorem test_ld_vx_dt : (run 0xF107 (base.setDt 0x2A)).readV 1 = 0x2A := by decide
theorem test_ld_dt_vx : (fun t => (t.dt, t.st)) (run 0xF115 (regs base [(1, 0x2A)])) = (0x2A, 0) := by decide
theorem test_ld_st_vx : (fun t => (t.dt, t.st)) (run 0xF118 (regs base [(1, 0x2A)])) = (0, 0x2A) := by decide
theorem test_fetch_2 :
    (fun t => (t.pc, t.run, t.fault.map (·.error))) (nextOf (step (base.setPc 0x0FFF))) =
      (0x0FFF, .halted, some .memoryOutOfBounds) := by decide
theorem test_fetch_5 :
    (nextOf (step (base.setPc 0))).fault = some { error := .unknownOpcode, pc := 0, word := 0xF090 } := by decide
/-- R233: each timer on its own, never below 0. -/
theorem test_tick : (fun t => (t.dt, t.st)) (nextOf (step (host .tick ((base.setDt 0).setSt 0xFF)))) = (0, 0xFE) := by
  decide
theorem test_rom_4 :
    (nextOf (step (host (.loadRom [0x61, 0x01, 0xF1, 0x29, 0xD0, 0x05]) base))).mem.readBytes 0x0200 7 =
      [0x61, 0x01, 0xF1, 0x29, 0xD0, 0x05, 0x00] := by decide
theorem test_rst_1 :
    (fun t => (t.mem, t.pc, t.readV 3, t.run, t.fault, t.config))
      (nextOf (step (host .reset (regs { bytes (start modern quiet) 0 [0x00] with
        pc := 0x0456, run := .halted, fault := some { error := .unknownOpcode, pc := 0x0456, word := 0xF1FF } }
          [(3, 0x77)])))) = ([], 0x0200, 0, .running, none, modern) := by decide
/-- Placing a word changes what the next step runs, also straight after reset. -/
theorem test_withFetchWord : (run 0x1ABC State.reset).pc = 0x0ABC := by decide
/-- The font at its two ends (20_memory.md R62). -/
theorem test_font : State.reset.mem.read 0 = 0xF0 ∧ State.reset.mem.read 79 = 0x80 ∧ State.reset.mem.read 80 = 0 := by
  decide

/-! ## Witnesses: for every statement with hypotheses, a state and operands that meet them -/

theorem witness_ResetRestoresEveryElement : NextIs (host .reset (base.setPc 0x456)) .reset := rfl

/-- A halted core whose host resets it, loads `rom` and steps. -/
def boot (rom : List Byte) : State := host .reset (host (.loadRom rom) { base with run := .halted })

/-- The ROMs at both ends of the range. -/
theorem witness_EntryPointAfterReset :
    let rom : List Byte := [0x1A, 0xBC]
    let big : List Byte := List.replicate 3584 0x6F
    (2 ≤ rom.length ∧ rom.length ≤ 3584 ∧ NextIs (boot rom) .reset ∧ step (boot rom) = .next (nextOf (step (boot rom))) ∧
        NextIs (nextOf (step (boot rom))) (.loadRom rom)) ∧
      2 ≤ big.length ∧ big.length ≤ 3584 :=
  ⟨⟨by decide, by decide, rfl, eq_nextOf (by decide), rfl⟩, by rw [List.length_replicate]; decide,
    by rw [List.length_replicate]⟩
/-- The last clause: a Step comes next, and the two bytes decode. -/
theorem witness_EntryPointAfterReset_first_step :
    NextIs (nextOf (step (nextOf (step (boot [0x1A, 0xBC]))))) (.step quiet) ∧
      decodeWord (0x1A#8 ++ 0xBC#8) = .ok (.jp 0xABC) := ⟨rfl, rfl⟩
theorem witness_BootWithoutRomHalts :
    let s := host .reset base
    NextIs s .reset ∧ step s = .next (nextOf (step s)) ∧ NextIs (nextOf (step s)) (.step quiet) :=
  ⟨rfl, eq_nextOf (by decide), rfl⟩
theorem witness_LaunchStatesAreLegal :
    Launched [0x12, 0x00] (nextOf (step (nextOf (step (boot [0x12, 0x00]))))) := rfl
theorem witness_AnyNumberOfTicksBetweenSteps :
    let s := host .tick (host .tick { base with run := .awaitingKey })
    s.run ≠ .halted ∧ s.host.agenda = List.replicate 2 .tick ++ base.host.agenda ∧
      base.host.agenda = List.replicate 0 .tick ++ base.host.agenda := ⟨by decide, rfl, rfl⟩
theorem witness_DecodeOfEncodeIsTheInstruction :
    (Instr.sys 0xFFF).wellFormed = true ∧ (Instr.sys 0).wellFormed = true ∧ (Instr.drw 15 15 15).wellFormed = true := by
  decide
theorem witness_EncodeOfDecodeIsTheWord : decodeWord 0xFF65 = .ok (.loadRegs 15) := rfl
/-- Words at the ends of every clause of R96, and a neighbour that decodes. -/
theorem witness_UnknownWordsAreExactlyThese :
    ([0x5001, 0x500F, 0x9001, 0x900F, 0x8008, 0x800D, 0x800F, 0xE000, 0xE09D, 0xF000, 0xF066] : List Nat).map
        (decodeTableWord 16) = List.replicate 11 none ∧
      decodeTableWord 16 0x8007 = some (.subnReg 0 0) ∧ decodeTableWord 16 0x800E = some (.shl 0 0) := by decide
theorem witness_StepRunsTheDecodedInstruction :
    let s := bytes (base.setPc 4094) 4094 [0x12, 0x34]
    NextIsStep s quiet [.step quiet] ∧ s.run = .running ∧ s.pc.toNat + 1 ≤ 4095 ∧
      decode [s.mem.read s.pc.toNat, s.mem.read (s.pc.toNat + 1)] = .ok (.jp 0x234, []) :=
  ⟨⟨rfl, rfl⟩, rfl, by decide, rfl⟩
/-- The other half of the host's next operation: nothing lined up, and whatever the host freely chooses comes next. -/
theorem test_free_operation : NextIs State.reset (Config.hostOp 1) := rfl
theorem witness_FetchOutOfRangeHalts :
    let s := base.setPc 4095
    NextIsStep s quiet [.step quiet] ∧ s.run = .running ∧ s.pc.toNat + 1 > 4095 := ⟨⟨rfl, rfl⟩, rfl, by decide⟩
theorem witness_UnknownOpcodeHalts :
    let s := base.setPc 0
    NextIsStep s quiet [.step quiet] ∧ s.run = .running ∧ s.pc.toNat + 1 ≤ 4095 ∧
      0xF090#16 = s.mem.read s.pc.toNat ++ s.mem.read (s.pc.toNat + 1) ∧
      decodeWord 0xF090 = .error (.unknownOpcode 0xF090) := ⟨⟨rfl, rfl⟩, rfl, by decide, by decide, rfl⟩
theorem witness_KeyPollDeliversOrWaits :
    let k := { quiet with keyEvent := some 15 }
    NextIsStep { base with run := .awaitingKey } quiet [.step quiet] ∧ quiet.keyEvent = none ∧
      NextIsStep { start legacy k with run := .awaitingKey } k [.step k] ∧ k.keyEvent = some 15 :=
  ⟨⟨rfl, rfl⟩, rfl, ⟨rfl, rfl⟩, rfl⟩

/-- A halted core. -/
def stopped : State :=
  { base with run := .halted, fault := some { error := .stackUnderflow, pc := 0x0200, word := 0x00EE } }

theorem witness_HaltedCoreChangesOnlyByReset :
    let s := host .tick stopped
    s.run = .halted ∧ ¬ NextIs s .reset ∧ step s = .next (nextOf (step s)) := by
  exact ⟨rfl, fun h => HostOp.noConfusion h, eq_nextOf (by decide)⟩

/-- A core about to execute LD V3,K, and one whose wait a key ends. -/
def atKeyWait : State := bytes base 0x200 [0xF3, 0x0A]

def waiting : State := { start legacy { quiet with keyEvent := some 11 } with run := .awaitingKey, waitReg := 3 }

theorem witness_AwaitingKeyEnteredAndLeft :
    (step atKeyWait = .next (nextOf (step atKeyWait)) ∧ (nextOf (step atKeyWait)).run = .awaitingKey ∧
        NextExecutes atKeyWait (.ldVxK 3)) ∧
      step waiting = .next (nextOf (step waiting)) ∧ waiting.run = .awaitingKey ∧
        (nextOf (step waiting)).run ≠ .awaitingKey :=
  ⟨⟨eq_nextOf (by decide), by decide, ⟨_, _, rfl, rfl⟩, rfl, by decide, rfl⟩, eq_nextOf (by decide), rfl, by decide⟩

theorem witness_CallPushesOrOverflows :
    base.sp.val < 16 ∧ ({ base with sp := 15 } : State).sp.val < 16 ∧ ({ base with sp := 16 } : State).sp.val = 16 := by
  decide
theorem witness_RetPopsOrUnderflows :
    0 < ({ base with sp := 1 } : State).sp.val ∧ 0 < ({ base with sp := 16 } : State).sp.val ∧ base.sp.val = 0 := by
  decide

/-- A core at depth 15 that calls 0x300, where LD V0,1 and then RET stand. -/
def caller : State := { bytes base 0x300 [0x60, 0x01, 0x00, 0xEE] with sp := 15, pc := 0x400 }

def called : State := nextOf (exec (.call 0x300) caller)

def calledOnce : State := nextOf (step called)

theorem witness_CallReturnStackDiscipline :
    caller.sp.val < 16 ∧ exec (.call 0x300) caller = .next called ∧ StaysAbove caller.sp.val called calledOnce ∧
      calledOnce.sp.val = caller.sp.val + 1 ∧ exec .ret calledOnce = .next (nextOf (exec .ret calledOnce)) :=
  ⟨by decide, eq_nextOf (by decide), .next (.here (by decide)) (eq_nextOf (by decide)) (by decide), by decide,
    eq_nextOf (by decide)⟩

/-- The clauses on x: a destination that is VF, and one that is not. -/
theorem witness_ArithmeticSetsResultAndFlag : (0 : Reg) ≠ vf ∧ (14 : Reg) ≠ vf := by decide
theorem witness_ShiftsByConfiguredSource : (14 : Reg) ≠ vf ∧ base.config.shiftSource = .legacy := by decide
theorem witness_BcdStoresThreeDigits : (base.setI 4093).mem.wf = true ∧ (base.setI 4093).i.toNat ≤ 4093 := by decide
theorem witness_BulkStoreWritesRegisters :
    base.mem.wf = true ∧ (base.setI 4080).i.toNat + (15 : Reg).val ≤ 4095 ∧
      (base.setI 4095).i.toNat + (0 : Reg).val ≤ 4095 := by decide
theorem witness_BulkLoadReadsRegisters :
    (base.setI 4080).i.toNat + (15 : Reg).val ≤ 4095 ∧ (base.setI 4095).i.toNat + (0 : Reg).val ≤ 4095 := by decide

/-- A core whose next fetch is overwritten: both bytes with I = pc, only the second with I = pc + 1. -/
def storing (i : Word) : State := regs { base with i := i, pc := 0x202 } [(0, 0x12), (1, 0x08)]

/-- I = pc, and I = pc + 1; for LD B,Vx also the last legal I. -/
theorem witness_StoreIsSeenByTheNextFetch :
    (storing 0x202).mem.wf = true ∧ (storing 0x202).i.toNat + (1 : Reg).val ≤ 4095 ∧
      (storing 0x203).i.toNat + (15 : Reg).val ≤ 4095 ∧ (storing 0x202).i.toNat ≤ 4093 ∧
      (storing 4093).i.toNat ≤ 4093 := by decide
/-- Vector ST-11 of section 2.6: the next Step fetches 0x1208; and the digits of 0x12, 0 1 8, fetched as 0x0001. -/
theorem test_store_seen :
    (run 0xF155 { storing 0x202 with pc := 0x200 }).fetchedWord = 0x1208 ∧
      (run 0xF033 { storing 0x202 with pc := 0x200 }).fetchedWord = 0x0001 := by decide
/-- The same bytes written in two orders. -/
theorem witness_CanonicalMemoryIsItsBytes :
    let m : Memory := Memory.write (Memory.write [] 0x300 1) 0x301 2
    let m' : Memory := Memory.write (Memory.write [] 0x301 2) 0x300 1
    m.wf = true ∧ m'.wf = true ∧ ∀ a, m.read a = m'.read a :=
  ⟨by decide, by decide, fun _ => rfl⟩

theorem witness_DrwFlipsTheSpritesPixels :
    (1 ≤ (15 : Nibble).toNat → (base.setI 4081).i.toNat + (15 : Nibble).toNat - 1 ≤ 4095) ∧
      (1 ≤ (0 : Nibble).toNat → (base.setI 0xFFFF).i.toNat + (0 : Nibble).toNat - 1 ≤ 4095) ∧
      (1 ≤ (1 : Nibble).toNat → (base.setI 4095).i.toNat + (1 : Nibble).toNat - 1 ≤ 4095) := by decide

/-- A core with I at the last row of glyph F, its state after CLS, and after one draw. -/
def artist : State := base.setI 79

def cleared : State := nextOf (exec .cls artist)

def drawnOnce : State := nextOf (exec (.drw 1 2 1) artist)

set_option maxRecDepth 4000 in
theorem witness_DrawAfterClearShowsTheSprite :
    (1 ≤ (1 : Nibble).toNat → artist.i.toNat + (1 : Nibble).toNat - 1 ≤ 4095) ∧ exec .cls artist = .next cleared ∧
      exec (.drw 1 2 1) cleared = .next (nextOf (exec (.drw 1 2 1) cleared)) :=
  ⟨by decide, eq_nextOf (by decide), eq_nextOf (by decide)⟩
set_option maxRecDepth 4000 in
theorem witness_DrawingTwiceRestores :
    (1 ≤ (1 : Nibble).toNat → artist.i.toNat + (1 : Nibble).toNat - 1 ≤ 4095) ∧
      exec (.drw 1 2 1) artist = .next drawnOnce ∧
      (drawnOnce.readV 1).toNat % 64 = (artist.readV 1).toNat % 64 ∧
      (drawnOnce.readV 2).toNat % 32 = (artist.readV 2).toNat % 32 ∧
      exec (.drw 1 2 1) drawnOnce = .next (nextOf (exec (.drw 1 2 1) drawnOnce)) :=
  ⟨by decide, eq_nextOf (by decide), by decide, by decide, eq_nextOf (by decide)⟩
/-- The first and last key code down, the last up, and the first byte that is no key code. -/
theorem witness_KeySkipsFollowTheKeyState :
    let keys := (Vector.replicate 16 false).set 15 true
    ((regs base [(1, 15)]).readV 1).toNat = (15 : Key).val ∧ keys[(15 : Key)] = true ∧ keys[(0 : Key)] = false ∧
      (base.readV 1).toNat = (0 : Key).val ∧ ((regs base [(1, 16)]).readV 1).toNat > 15 := by decide
theorem witness_TickCountsEachTimerDown :
    NextIs (host .tick { base with run := .awaitingKey }) .tick ∧
      (host .tick { base with run := .awaitingKey }).run ≠ .halted := ⟨rfl, by decide⟩
/-- The largest ROM, and one byte more (95_test_vectors.md E8). -/
theorem witness_LoadRomCopiesOrRejects :
    base.mem.wf = true ∧ base.run ≠ .halted ∧
      NextIs (host (.loadRom (List.replicate 3584 0xAA)) base) (.loadRom (List.replicate 3584 0xAA)) ∧
      (List.replicate 3584 (0xAA : Byte)).length ≤ 3584 ∧ (List.replicate 3585 (0xAA : Byte)).length > 3584 :=
  ⟨by decide, by decide, rfl, by rw [List.length_replicate], by rw [List.length_replicate]; decide⟩
/-- Both sides of each condition of the error table. -/
theorem witness_ErrorsExactlyWhenTheTableSays :
    base.run ≠ .halted ∧
      errorOf (.call 0) { base with sp := 16 } = some .stackOverflow ∧ errorOf (.call 0) { base with sp := 15 } = none ∧
      errorOf .ret base = some .stackUnderflow ∧ errorOf .ret { base with sp := 1 } = none ∧
      errorOf (.sys 0) base = some .unsupportedOpcode ∧
      errorOf (.ldB 0) (base.setI 4094) = some .memoryOutOfBounds ∧ errorOf (.ldB 0) (base.setI 4093) = none ∧
      errorOf (.loadRegs 15) (base.setI 4081) = some .memoryOutOfBounds ∧
      errorOf (.loadRegs 15) (base.setI 4080) = none ∧
      errorOf (.drw 0 0 15) (base.setI 4082) = some .memoryOutOfBounds ∧
      errorOf (.drw 0 0 15) (base.setI 4081) = none ∧ errorOf (.drw 0 0 0) (base.setI 4096) = none := by decide
theorem witness_FatalErrorsArePrecise :
    NextIsStep base quiet [.step quiet] ∧ base.run = .running ∧ step base = .next (nextOf (step base)) ∧
      (nextOf (step base)).run = .halted := ⟨⟨rfl, rfl⟩, rfl, eq_nextOf (by decide), by decide⟩
/-- A legal state with a live stack entry and the largest pc, and its step. -/
theorem witness_LegalKeptByEveryStep :
    let s := { base with pc := 0x10FE, sp := 1, stack := Vector.replicate 16 0x1000 }
    Legal s ∧ step s = .next (nextOf (step s)) :=
  ⟨⟨by decide, by decide, by decide, by decide⟩, eq_nextOf (by decide)⟩
theorem witness_RegistersOutsideDestinationsKept :
    exec (.addReg 1 2) base = .next (nextOf (exec (.addReg 1 2) base)) ∧ (3 : Reg) ∉ destRegs (.addReg 1 2) :=
  ⟨eq_nextOf (by decide), by decide⟩
theorem witness_OnlyTheTwoStoresChangeMemory :
    let s := regs (base.setI 4093) [(3, 0xFF)]
    let u := regs (base.setI 4080) [(vf, 0xFF)]
    (exec (.ldB 3) s = .next (nextOf (exec (.ldB 3) s)) ∧
      (nextOf (exec (.ldB 3) s)).mem.read 4095 ≠ s.mem.read 4095) ∧
      exec (.storeRegs 15) u = .next (nextOf (exec (.storeRegs 15) u)) ∧
      (nextOf (exec (.storeRegs 15) u)).mem.read 4095 ≠ u.mem.read 4095 :=
  ⟨⟨eq_nextOf (by decide), by decide⟩, eq_nextOf (by decide), by decide⟩

/-- A core with one pixel set, about to execute CLS. -/
def dotted : State := bytes (base.setFb (base.fb.setPixel 31 63 true)) 0x200 [0x00, 0xE0]

set_option maxRecDepth 4000 in
theorem witness_FramebufferChangesOnlyByClsDrwReset :
    step dotted = .next (nextOf (step dotted)) ∧ (nextOf (step dotted)).fb ≠ dotted.fb :=
  ⟨eq_nextOf (by decide), fun h => absurd (congrArg (fun fb => fb.pixel 31 63) h) (by decide)⟩
theorem witness_StackChangesOnlyByCallAndRet :
    exec (.call 0x300) caller = .next called ∧ ¬ KeepsStack caller called :=
  ⟨eq_nextOf (by decide), fun h => absurd h.2 (by decide)⟩
theorem witness_TimersChangeOnlyByTickAndTheirLoads :
    let s := host .tick ((base.setDt 1).setSt 0xFF)
    step s = .next (nextOf (step s)) ∧ (nextOf (step s)).dt ≠ s.dt ∧ (nextOf (step s)).st ≠ s.st :=
  ⟨eq_nextOf (by decide), by decide, by decide⟩
theorem witness_ConfigNeverChanges :
    step (host .reset base) = .next (nextOf (step (host .reset base))) := eq_nextOf (by decide)
theorem witness_SoundTimerIsUnread :
    exec (.ldStVx 0) (base.setSt 7) = .next (nextOf (exec (.ldStVx 0) (base.setSt 7))) ∧
      exec .cls (base.setSt 7) = .next (nextOf (exec .cls (base.setSt 7))) :=
  ⟨eq_nextOf (by decide), eq_nextOf (by decide)⟩
theorem witness_InputsIgnoredUnlessSampled :
    (∀ x kk, Instr.ldVxK 3 ≠ .rnd x kk) ∧ (∀ x, Instr.ldVxK 3 ≠ .skp x) ∧ (∀ x, Instr.ldVxK 3 ≠ .sknp x) ∧
      exec (.ldVxK 3) base = .next (nextOf (exec (.ldVxK 3) base)) :=
  ⟨fun _ _ => nofun, fun _ => nofun, fun _ => nofun, eq_nextOf (by decide)⟩
/-- Two states that differ in the entry at index SP. -/
theorem witness_DeadStackEntriesAreUnobservable :
    SameButDeadStack { base with sp := 1 } { base with sp := 1, stack := base.stack.set 1 0x777 } ∧
      base.stack.set 1 0x777 ≠ base.stack ∧
      step { base with sp := 1 } = .next (nextOf (step { base with sp := 1 })) :=
  ⟨⟨rfl, by decide⟩, by decide, eq_nextOf (by decide)⟩

end Sys2Proof.Tests
end

section
/-! The two jumps (41_control_flow.md R140, R143): both are one write of pc, so they share its frame; what is left is the
target as a number. -/

namespace Sys2Proof.Proofs

open Sys2Proof.Machine Sys2Proof.Claims

/-- The frame of every jump. -/
theorem onlyPc_setPc (s : State) (a : Word) : OnlyPc s (s.setPc a) := by
  simp [OnlyPc, KeepsV, KeepsMem, KeepsStack, KeepsTimers, KeepsFb, KeepsRun, KeepsRest]

/-- A 12-bit address plus a byte is at most 0x10FE, so the 16-bit sum never wraps (R143). -/
theorem zextAddr_add_zextByte_toNat (nnn : Addr12) (b : Byte) :
    (zextAddr nnn + zextByte b).toNat = nnn.toNat + b.toNat := by
  have hsum : nnn.toNat + b.toNat < 2 ^ 16 := by
    have := nnn.isLt
    have := b.isLt
    omega
  rw [BitVec.toNat_add, zextAddr_toNat, zextByte_toNat, Nat.mod_eq_of_lt hsum]

/-- Settles O15: the jump is the write of pc, and zero extension keeps the address's value. -/
theorem jpSetsPc : Obligations.JpSetsPc := fun nnn s =>
  ⟨s.setPc (zextAddr nnn), exec_jp nnn s, zextAddr_toNat nnn, onlyPc_setPc s _⟩

/-- Settles O16: the jump is the write of pc, and the sum does not wrap. -/
theorem jpV0AddsV0 : Obligations.JpV0AddsV0 := fun nnn s =>
  ⟨s.setPc (zextAddr nnn + zextByte (s.readV 0)), exec_jpV0 nnn s, zextAddr_add_zextByte_toNat nnn _,
    onlyPc_setPc s _⟩

end Sys2Proof.Proofs
end

section
/-! The four comparing skips (42_conditional_skip.md R150 to R153): each is one conditional write of pc, so they share its
frame and its target; what is left is the comparison of two bytes as a comparison of numbers. -/

namespace Sys2Proof.Proofs

open Sys2Proof.Machine Sys2Proof.Claims

/-- The frame of every skip, taken or not. -/
theorem onlyPc_skipIf (s : State) (c : Bool) : OnlyPc s (s.skipIf c) := by
  simp [OnlyPc, KeepsV, KeepsMem, KeepsStack, KeepsTimers, KeepsFb, KeepsRun, KeepsRest]

/-- The target of every skip, whose condition may be given as a proposition. -/
theorem skipIf_pc_of_iff {c : Bool} {P : Prop} [Decidable P] (hc : c = true ↔ P) (s : State) :
    (s.skipIf c).pc = if P then s.pc + 2 else s.pc := by
  simp only [State.skipIf_pc, hc]

theorem byte_beq_iff_toNat_eq (a b : Byte) : (a == b) = true ↔ a.toNat = b.toNat := by
  rw [beq_iff_eq, BitVec.toNat_inj]

theorem byte_bne_iff_toNat_ne (a b : Byte) : (a != b) = true ↔ a.toNat ≠ b.toNat := by
  rw [bne_iff_ne, Ne, Ne, BitVec.toNat_inj]

/-- Settles O21: each skip is one conditional write of pc, and bytes are equal exactly when their numbers are. -/
theorem skipsFollowTheirComparison : Obligations.SkipsFollowTheirComparison := fun x y kk s =>
  ⟨⟨_, exec_seByte x kk s, onlyPc_skipIf s _, skipIf_pc_of_iff (byte_beq_iff_toNat_eq _ _) s⟩,
    ⟨_, exec_sneByte x kk s, onlyPc_skipIf s _, skipIf_pc_of_iff (byte_bne_iff_toNat_ne _ _) s⟩,
    ⟨_, exec_seReg x y s, onlyPc_skipIf s _, skipIf_pc_of_iff (byte_beq_iff_toNat_eq _ _) s⟩,
    ⟨_, exec_sneReg x y s, onlyPc_skipIf s _, skipIf_pc_of_iff (byte_bne_iff_toNat_ne _ _) s⟩⟩

end Sys2Proof.Proofs
end

section
/-! Loads, the immediate add and the bitwise operations (43_load_arith.md R160 to R165): each is one write of V[x], so they
share its frame; what is left is the value written, as a number or bit by bit. -/

namespace Sys2Proof.Proofs

open Sys2Proof.Machine Sys2Proof.Claims

/-- The frame of every instruction that writes one register. -/
theorem onlyV_writeV (s : State) (x : Reg) (b : Byte) : OnlyV [x] s (s.writeV x b) := by
  have hv : KeepsV [x] s (s.writeV x b) := fun r hr =>
    State.readV_writeV_ne s b (List.ne_of_not_mem_cons hr)
  simp [OnlyV, hv, KeepsMem, KeepsStack, KeepsTimers, KeepsFb, KeepsRun, KeepsRest]

/-- Settles O22: each is one write of V[x], and the sum of two bytes is their sum modulo 256. -/
theorem loadsAndImmediateAdd : Obligations.LoadsAndImmediateAdd := fun x y kk s =>
  have hsum : ((s.writeV x (s.readV x + kk)).readV x).toNat = ((s.readV x).toNat + kk.toNat) % 256 := by
    rw [State.readV_writeV_same, BitVec.toNat_add]
  ⟨⟨_, exec_ldByte x kk s, State.readV_writeV_same s x _, onlyV_writeV s x _⟩,
    ⟨_, exec_addByte x kk s, hsum, onlyV_writeV s x _⟩,
    ⟨_, exec_ldReg x y s, State.readV_writeV_same s x _, onlyV_writeV s x _⟩⟩

/-- Settles O23: each is one write of V[x], and the bits of the byte written are the operation on the operands' bits. -/
theorem logicIsBitByBit : Obligations.LogicIsBitByBit := fun x y s =>
  ⟨⟨_, exec_orReg x y s, onlyV_writeV s x _, fun k _ => by
      rw [State.readV_writeV_same, BitVec.getLsbD_or]⟩,
    ⟨_, exec_andReg x y s, onlyV_writeV s x _, fun k _ => by
      rw [State.readV_writeV_same, BitVec.getLsbD_and]⟩,
    ⟨_, exec_xorReg x y s, onlyV_writeV s x _, fun k _ => by
      rw [State.readV_writeV_same, BitVec.getLsbD_xor]⟩⟩

end Sys2Proof.Proofs
end

section
/-! The three writes of the address register (46_memory_index.md R195 to R197): each is one write of I, so they share its
frame; what is left is the address written, as a number. -/

namespace Sys2Proof.Proofs

open Sys2Proof.Machine Sys2Proof.Claims

/-- The frame of every instruction that writes only the address register. -/
theorem onlyI_setI (s : State) (a : Word) : OnlyI s (s.setI a) := by
  simp [OnlyI, KeepsV, KeepsMem, KeepsStack, KeepsTimers, KeepsFb, KeepsRun, KeepsRest]

/-- An address plus a byte is their sum modulo 65536, with no flag for the wrap (R196). -/
theorem add_zextByte_toNat (a : Word) (b : Byte) :
    (a + zextByte b).toNat = (a.toNat + b.toNat) % 65536 := by
  rw [BitVec.toNat_add, zextByte_toNat]

/-- Settles O27: each is one write of I, of the zero-extended address, of the wrapped sum, and of the glyph's address. -/
theorem addressRegisterWrites : Obligations.AddressRegisterWrites := fun nnn x s =>
  ⟨⟨_, exec_ldI nnn s, zextAddr_toNat nnn, onlyI_setI s _⟩,
    ⟨_, exec_addI x s, add_zextByte_toNat s.i (s.readV x), onlyI_setI s _⟩,
    ⟨_, exec_ldF x s, glyphAddr_toNat (s.readV x), onlyI_setI s _⟩⟩

end Sys2Proof.Proofs
end

section
/-! The clearing of the display (47_display.md R210): CLS is one write of the framebuffer, of the blank one. -/

namespace Sys2Proof.Proofs

open Sys2Proof.Machine Sys2Proof.Claims

/-- The frame of a write of the framebuffer, whatever is written. -/
theorem setFb_frame (s : State) (fb : Framebuffer) :
    KeepsV [] s (s.setFb fb) ∧ (s.setFb fb).i = s.i ∧ (s.setFb fb).pc = s.pc ∧ KeepsMem s (s.setFb fb) ∧
      KeepsStack s (s.setFb fb) ∧ KeepsTimers s (s.setFb fb) ∧ KeepsRun s (s.setFb fb) ∧ KeepsRest s (s.setFb fb) := by
  simp [KeepsV, KeepsMem, KeepsStack, KeepsTimers, KeepsRun, KeepsRest]

/-- Settles O33: CLS is one write of the framebuffer, and the blank framebuffer has no pixel set. -/
theorem clsClearsEveryPixel : Obligations.ClsClearsEveryPixel := fun s =>
  have hpixel (r c : Nat) : (s.setFb Framebuffer.blank).fb.pixel r c = false := by
    rw [State.setFb_fb, Framebuffer.pixel_blank]
  ⟨_, exec_cls s, hpixel, setFb_frame s _⟩

end Sys2Proof.Proofs
end

section
/-! The copies between V[x] and a timer (49_timers.md R230 to R232): the read of DT is one write of V[x], which has the
register writes' frame; the two sets are one write of a timer each, and share the frame below. -/

namespace Sys2Proof.Proofs

open Sys2Proof.Machine Sys2Proof.Claims

/-- Nothing changes but the timers; which of the two may change is said beside it. -/
def OnlyTimers (s t : State) : Prop :=
  KeepsV [] s t ∧ t.i = s.i ∧ t.pc = s.pc ∧ KeepsMem s t ∧ KeepsStack s t ∧ KeepsFb s t ∧ KeepsRun s t ∧ KeepsRest s t

theorem onlyTimers_setDt (s : State) (b : Byte) : OnlyTimers s (s.setDt b) := by
  simp [OnlyTimers, KeepsV, KeepsMem, KeepsStack, KeepsFb, KeepsRun, KeepsRest]

theorem onlyTimers_setSt (s : State) (b : Byte) : OnlyTimers s (s.setSt b) := by
  simp [OnlyTimers, KeepsV, KeepsMem, KeepsStack, KeepsFb, KeepsRun, KeepsRest]

/-- Settles O39: one write of V[x], one of DT and one of ST, and the write of a timer leaves the other one alone. -/
theorem timerInstructionsCopy : Obligations.TimerInstructionsCopy := fun x s =>
  ⟨⟨_, exec_ldVxDt x s, State.readV_writeV_same s x _, onlyV_writeV s x _⟩,
    ⟨_, exec_ldDtVx x s, State.setDt_dt s _, State.setDt_st s _, onlyTimers_setDt s _⟩,
    ⟨_, exec_ldStVx x s, State.setSt_st s _, State.setSt_dt s _, onlyTimers_setSt s _⟩⟩

end Sys2Proof.Proofs
end

section
/-! The decoder and the encoder are inverse (30_encoding.md R94 to R98): a word of each format is read back field by
field, a word is put together again from its own fields, and the words with no match are those of R96. -/

namespace Sys2Proof.Proofs

/-! ### Decoding what was encoded -/

theorem formatA_injective {op : BitVec 4} {nnn nnn' : Addr12} (h : formatA op nnn = formatA op nnn') : nnn = nnn' := by
  simpa using congrArg nnnField h

/-- SYS with an address other than those of the words of CLS and RET is decoded as SYS (R95). -/
theorem decodeWord_sys {nnn : Addr12} (hcls : nnn ≠ 0x0E0) (hret : nnn ≠ 0x0EE) :
    decodeWord (formatA 0x0 nnn) = .ok (.sys nnn) := by
  have h1 : formatA 0x0 nnn ≠ 0x00E0 := fun h => hcls (formatA_injective h)
  have h2 : formatA 0x0 nnn ≠ 0x00EE := fun h => hret (formatA_injective h)
  simp only [decodeWord, opField_formatA, nnnField_formatA]
  exact (if_neg h1).trans (if_neg h2)

theorem decodeWord_encodeWord {i : Instr} (hi : i.wellFormed = true) : decodeWord (encodeWord i) = .ok i := by
  cases i
  case cls => rfl
  case ret => rfl
  case sys nnn =>
    simp only [Instr.wellFormed, Bool.and_eq_true, bne_iff_ne] at hi
    exact decodeWord_sys hi.1 hi.2
  all_goals simp [encodeWord, decodeWord, decodeFamily8, decodeFamilyE, decodeFamilyF]

/-- Settles O4: by the instruction's format, each field of whose word reads as the operand put there. -/
theorem decodeOfEncodeIsTheInstruction : Obligations.DecodeOfEncodeIsTheInstruction := fun i hi =>
  ⟨decodeWord_encodeWord hi, fun rest => by
    rw [encode, List.cons_append, List.cons_append, List.nil_append, decode_cons_cons,
      wordOfBytes_highByte_lowByte, decodeWord_encodeWord hi]
    rfl⟩

/-! ### Encoding what was decoded -/

@[simp] theorem regBits_xField (w : Word) : regBits (xField w) = w.extractLsb' 8 4 :=
  BitVec.eq_of_toNat_eq (regBits_toNat _)

@[simp] theorem regBits_yField (w : Word) : regBits (yField w) = w.extractLsb' 4 4 :=
  BitVec.eq_of_toNat_eq (regBits_toNat _)

/-- The fields of format A make the word again (R98). -/
theorem formatA_fields (w : Word) {op : BitVec 4} (hop : opField w = op.toNat) : formatA op (nnnField w) = w := by
  obtain rfl : w.extractLsb' 12 4 = op := BitVec.eq_of_toNat_eq hop
  unfold formatA nnnField
  rw [BitVec.extractLsb'_append_extractLsb'_eq_extractLsb' (by rfl), BitVec.extractLsb'_eq_self]

/-- The fields of formats XK and XF make the word again (R98). -/
theorem formatXK_fields (w : Word) {op : BitVec 4} {kk : Byte} (hop : opField w = op.toNat) (hkk : kkField w = kk) :
    formatXK op (xField w) kk = w := by
  obtain rfl : w.extractLsb' 12 4 = op := BitVec.eq_of_toNat_eq hop
  subst hkk
  unfold formatXK kkField
  rw [regBits_xField, BitVec.extractLsb'_append_extractLsb'_eq_extractLsb' (by rfl),
    BitVec.extractLsb'_append_extractLsb'_eq_extractLsb' (by rfl), BitVec.extractLsb'_eq_self]

/-- The fields of formats XY and XYN make the word again (R98). -/
theorem formatXY_fields (w : Word) {op : BitVec 4} {n : Nibble} (hop : opField w = op.toNat) (hn : nField w = n) :
    formatXY op (xField w) (yField w) n = w := by
  obtain rfl : w.extractLsb' 12 4 = op := BitVec.eq_of_toNat_eq hop
  subst hn
  unfold formatXY nField
  rw [regBits_xField, regBits_yField, BitVec.extractLsb'_append_extractLsb'_eq_extractLsb' (by rfl),
    BitVec.extractLsb'_append_extractLsb'_eq_extractLsb' (by rfl),
    BitVec.extractLsb'_append_extractLsb'_eq_extractLsb' (by rfl), BitVec.extractLsb'_eq_self]

theorem encodeWord_of_decodeFamily8 {w : Word} {i : Instr} (hop : opField w = 0x8) (h : decodeFamily8 w = .ok i) :
    encodeWord i = w ∧ i.wellFormed = true := by
  unfold decodeFamily8 at h
  split at h <;> cases h
  all_goals exact ⟨formatXY_fields w hop (BitVec.eq_of_toNat_eq ‹_›), rfl⟩

theorem encodeWord_of_decodeFamilyE {w : Word} {i : Instr} (hop : opField w = 0xE) (h : decodeFamilyE w = .ok i) :
    encodeWord i = w ∧ i.wellFormed = true := by
  unfold decodeFamilyE at h
  split at h <;> cases h
  all_goals exact ⟨formatXK_fields w hop (BitVec.eq_of_toNat_eq ‹_›), rfl⟩

theorem encodeWord_of_decodeFamilyF {w : Word} {i : Instr} (hop : opField w = 0xF) (h : decodeFamilyF w = .ok i) :
    encodeWord i = w ∧ i.wellFormed = true := by
  unfold decodeFamilyF at h
  split at h <;> cases h
  all_goals exact ⟨formatXK_fields w hop (BitVec.eq_of_toNat_eq ‹_›), rfl⟩

/-- The words of CLS and RET are taken before SYS, so what decodes to SYS is well formed (R95, R97). -/
theorem sys_wellFormed_of_ne {w : Word} (hop : opField w = 0x0) (hcls : w ≠ 0x00E0) (hret : w ≠ 0x00EE) :
    (Instr.sys (nnnField w)).wellFormed = true := by
  have hw : formatA 0x0 (nnnField w) = w := formatA_fields w hop
  simp only [Instr.wellFormed, Bool.and_eq_true, bne_iff_ne]
  constructor
  · intro h
    rw [h] at hw
    exact hcls hw.symm
  · intro h
    rw [h] at hw
    exact hret hw.symm

theorem opField_lt (w : Word) : opField w < 16 := (w.extractLsb' 12 4).isLt

/-- Settles O5: by the family of the word, whose fields make it again. -/
theorem encodeOfDecodeIsTheWord : Obligations.EncodeOfDecodeIsTheWord := by
  intro w i h
  have hlt := opField_lt w
  unfold decodeWord at h
  split at h
  case h_1 hop =>
    split at h
    · cases h; subst_vars; exact ⟨rfl, rfl⟩
    · split at h
      · cases h; subst_vars; exact ⟨rfl, rfl⟩
      · cases h
        exact ⟨formatA_fields w hop, sys_wellFormed_of_ne hop ‹_› ‹_›⟩
  case h_6 hop | h_10 hop =>
    split at h <;> cases h
    exact ⟨formatXY_fields w hop ‹_›, rfl⟩
  case h_9 hop => exact encodeWord_of_decodeFamily8 hop h
  case h_15 hop => exact encodeWord_of_decodeFamilyE hop h
  case h_16 =>
    simp only [imp_false] at *
    exact encodeWord_of_decodeFamilyF (by omega) h
  case h_2 hop | h_3 hop | h_11 hop | h_12 hop => cases h; exact ⟨formatA_fields w hop, rfl⟩
  case h_4 hop | h_5 hop | h_7 hop | h_8 hop | h_13 hop => cases h; exact ⟨formatXK_fields w hop rfl, rfl⟩
  case h_14 hop => cases h; exact ⟨formatXY_fields w hop rfl, rfl⟩

/-! ### The words with no match -/

theorem opField_eq (w : Word) : opField w = w.toNat / 4096 := by
  unfold opField
  rw [BitVec.extractLsb'_toNat, Nat.shiftRight_eq_div_pow]
  omega

theorem kkField_toNat (w : Word) : (kkField w).toNat = w.toNat % 256 := by
  unfold kkField
  rw [BitVec.extractLsb'_toNat]
  rfl

theorem nField_toNat (w : Word) : (nField w).toNat = w.toNat % 16 := by
  unfold nField
  rw [BitVec.extractLsb'_toNat]
  rfl

/-- The nine function nibbles of the 8 family, as the complement of R96's list. -/
theorem decodeFamily8_unknown_iff (w : Word) :
    decodeFamily8 w = .error (.unknownOpcode w) ↔ (nField w).toNat ∈ [8, 9, 0xA, 0xB, 0xC, 0xD, 0xF] := by
  have hlt := (nField w).isLt
  unfold decodeFamily8
  split
  case h_10 =>
    simp only [imp_false] at *
    simp
    omega
  all_goals simp_all

theorem decodeFamilyE_unknown_iff (w : Word) :
    decodeFamilyE w = .error (.unknownOpcode w) ↔ (kkField w).toNat ≠ 0x9E ∧ (kkField w).toNat ≠ 0xA1 := by
  unfold decodeFamilyE
  split <;> simp_all

theorem decodeFamilyF_unknown_iff (w : Word) :
    decodeFamilyF w = .error (.unknownOpcode w) ↔
      (kkField w).toNat ∉ [0x07, 0x0A, 0x15, 0x18, 0x1E, 0x29, 0x33, 0x55, 0x65] := by
  unfold decodeFamilyF
  split <;> simp_all

/-- The Unknown words by their fields (R96). -/
theorem decodeWord_unknown_iff (w : Word) :
    decodeWord w = .error (.unknownOpcode w) ↔
      (opField w = 5 ∧ (nField w).toNat ≠ 0) ∨ (opField w = 9 ∧ (nField w).toNat ≠ 0) ∨
      (opField w = 8 ∧ (nField w).toNat ∈ [8, 9, 0xA, 0xB, 0xC, 0xD, 0xF]) ∨
      (opField w = 0xE ∧ (kkField w).toNat ≠ 0x9E ∧ (kkField w).toNat ≠ 0xA1) ∨
      (opField w = 0xF ∧ (kkField w).toNat ∉ [0x07, 0x0A, 0x15, 0x18, 0x1E, 0x29, 0x33, 0x55, 0x65]) := by
  have hn : nField w = 0 ↔ (nField w).toNat = 0 := ⟨fun h => by rw [h]; rfl, fun h => BitVec.eq_of_toNat_eq h⟩
  have hlt := opField_lt w
  unfold decodeWord
  split
  case h_1 hop =>
    simp only [hop]
    split
    · simp
    · split <;> simp
  case h_6 hop | h_10 hop =>
    simp only [hop, hn]
    split <;> simp_all
  case h_9 hop => simp [hop, decodeFamily8_unknown_iff]
  case h_15 hop => simp [hop, decodeFamilyE_unknown_iff]
  case h_16 =>
    simp only [imp_false] at *
    have hop : opField w = 15 := by omega
    simp [hop, decodeFamilyF_unknown_iff]
  all_goals simp [*]

/-- The decoder's only rejection of a word is that it is Unknown. -/
theorem decodeWord_ok_or_unknown (w : Word) :
    (∃ i, decodeWord w = .ok i) ∨ decodeWord w = .error (.unknownOpcode w) := by
  have family8 : (∃ i, decodeFamily8 w = .ok i) ∨ decodeFamily8 w = .error (.unknownOpcode w) := by
    unfold decodeFamily8
    split <;> simp
  have familyE : (∃ i, decodeFamilyE w = .ok i) ∨ decodeFamilyE w = .error (.unknownOpcode w) := by
    unfold decodeFamilyE
    split <;> simp
  have familyF : (∃ i, decodeFamilyF w = .ok i) ∨ decodeFamilyF w = .error (.unknownOpcode w) := by
    unfold decodeFamilyF
    split <;> simp
  unfold decodeWord
  split
  case h_1 =>
    split
    · simp
    · split <;> simp
  case h_6 | h_10 => split <;> simp
  case h_9 => exact family8
  case h_15 => exact familyE
  case h_16 => exact familyF
  all_goals simp

/-- Settles O6: by the family of the word, each family's list the complement of its function codes. -/
theorem unknownWordsAreExactlyThese : Obligations.UnknownWordsAreExactlyThese := by
  intro w
  refine ⟨?_, (decodeWord_ok_or_unknown w).resolve_right⟩
  simpa only [opField_eq, nField_toNat, kkField_toNat] using decodeWord_unknown_iff w

/-- Settles O7: the decoder is run on each word. -/
theorem wordsOfThePatternsDecode : Obligations.WordsOfThePatternsDecode := by
  unfold Obligations.WordsOfThePatternsDecode
  and_intros <;> rfl

end Sys2Proof.Proofs
end

section
/-! The errors of the instructions (60_exceptions.md R240 to R246): which one an instruction raises, if any, and what it
leaves; then CALL, RET and SYS, two of which raise one in one case only (41_control_flow.md R141, R142, R144). -/

namespace Sys2Proof.Proofs

open Sys2Proof.Machine Sys2Proof.Claims

/-! ### Taking an error -/

/-- An error leaves what R246 describes. -/
theorem raises_of_raiseIn {i : Instr} {e : ErrorKind} {s t : State} (h : raiseIn i e s = .next t) : Raises i e s t := by
  rw [raiseIn_eq] at h
  cases h
  simp [Raises, KeepsV, KeepsMem, KeepsStack, KeepsTimers, KeepsFb, KeepsRest, State.readV]

theorem exists_raises {i : Instr} {e : ErrorKind} {s : State} (h : exec i s = raiseIn i e s) :
    ∃ t, exec i s = .next t ∧ Raises i e s t :=
  ⟨_, h.trans (raiseIn_eq i e s), raises_of_raiseIn (raiseIn_eq i e s)⟩

/-! ### CALL and RET, each by what the stack holds -/

/-- The state in which a call has pushed the advanced pc and jumped (R141). -/
def afterCall (nnn : Addr12) (s : State) (h : s.sp.val < 16) : State :=
  { s with stack := s.stack.set s.sp.val s.pc, sp := ⟨s.sp.val + 1, by omega⟩, pc := zextAddr nnn }

/-- The state in which a return has popped the top entry into pc (R142). -/
def afterRet (s : State) (h : 0 < s.sp.val) : State :=
  { s with sp := ⟨s.sp.val - 1, by omega⟩, pc := s.stack[s.sp.val - 1] }

theorem exec_call_of_lt {nnn : Addr12} {s : State} (h : s.sp.val < 16) :
    exec (.call nnn) s = .next (afterCall nnn s h) := by
  change execCall nnn s = _
  simp [execCall, State.push, h, afterCall, State.setPc]

theorem exec_call_of_full {nnn : Addr12} {s : State} (h : s.sp.val = 16) :
    exec (.call nnn) s = raiseIn (.call nnn) .stackOverflow s := by
  change execCall nnn s = _
  simp only [execCall, State.push_eq_none.mpr h]

theorem exec_ret_of_pos {s : State} (h : 0 < s.sp.val) : exec .ret s = .next (afterRet s h) := by
  change execRet s = _
  simp [execRet, State.pop, h, afterRet, State.setPc]

theorem exec_ret_of_empty {s : State} (h : s.sp.val = 0) : exec .ret s = raiseIn .ret .stackUnderflow s := by
  change execRet s = _
  simp only [execRet, State.pop_eq_none.mpr h]

theorem stack_afterCall (nnn : Addr12) (s : State) (h : s.sp.val < 16) (k : Fin 16) :
    (afterCall nnn s h).stack[k] = if k.val = s.sp.val then s.pc else s.stack[k] := by
  simp only [afterCall, Fin.getElem_fin, Vector.getElem_set, eq_comm]

theorem onlyPcAndStack_afterCall (nnn : Addr12) (s : State) (h : s.sp.val < 16) :
    OnlyPcAndStack s (afterCall nnn s h) := by
  simp [OnlyPcAndStack, afterCall, KeepsV, KeepsMem, KeepsTimers, KeepsFb, KeepsRun, KeepsRest, State.readV]

theorem onlyPcAndStack_afterRet (s : State) (h : 0 < s.sp.val) : OnlyPcAndStack s (afterRet s h) := by
  simp [OnlyPcAndStack, afterRet, KeepsV, KeepsMem, KeepsTimers, KeepsFb, KeepsRun, KeepsRest, State.readV]

/-- A return takes the entry below SP. -/
theorem pc_afterRet {s : State} (h : 0 < s.sp.val) {k : Fin 16} (hk : k.val + 1 = s.sp.val) :
    (afterRet s h).pc = s.stack[k] := by
  simp only [afterRet, Fin.getElem_fin, ← hk, Nat.add_sub_cancel]

/-- Settles O17: by whether the stack has room. -/
theorem callPushesOrOverflows : Obligations.CallPushesOrOverflows := fun nnn s =>
  ⟨fun h => ⟨_, exec_call_of_lt h, zextAddr_toNat nnn, rfl, stack_afterCall nnn s h,
      onlyPcAndStack_afterCall nnn s h⟩,
    fun h => exists_raises (exec_call_of_full h)⟩

/-- Settles O18: by whether the stack holds an entry. -/
theorem retPopsOrUnderflows : Obligations.RetPopsOrUnderflows := fun s =>
  ⟨fun h => ⟨_, exec_ret_of_pos h, Nat.sub_add_cancel h, fun _ hk => pc_afterRet h hk, rfl,
      onlyPcAndStack_afterRet s h⟩,
    fun h => exists_raises (exec_ret_of_empty h)⟩

/-- Settles O19: the meaning of SYS is the error. -/
theorem sysAlwaysUnsupported : Obligations.SysAlwaysUnsupported := fun nnn s => exists_raises (exec_sys nnn s)

/-! ### The error table -/

theorem inBounds_false_of_gt {a len : Nat} (h : 1 ≤ len ∧ a + len - 1 > 4095) : inBounds a len = false := by
  rw [← Bool.not_eq_true, inBounds_iff]
  omega

theorem exec_of_errorOf_eq_some {i : Instr} {s : State} {e : ErrorKind} (h : errorOf i s = some e) :
    exec i s = raiseIn i e s := by
  cases i
  case sys nnn => cases h; rfl
  case call nnn =>
    obtain ⟨hsp, he⟩ := Option.ite_none_right_eq_some.mp h
    cases he
    exact exec_call_of_full hsp
  case ret =>
    obtain ⟨hsp, he⟩ := Option.ite_none_right_eq_some.mp h
    cases he
    exact exec_ret_of_empty hsp
  case ldB x | storeRegs x | loadRegs x | drw x y n =>
    obtain ⟨hb, he⟩ := Option.ite_none_right_eq_some.mp h
    cases he
    exact withRange_of_not_inBounds (inBounds_false_of_gt (by simp only [bulkCount, gt_iff_lt]; omega))
  all_goals cases h

/-- An instruction without an error goes on, and of RUN and FAULT it writes at most that it waits for a key. -/
def Continues (s t : State) : Prop := (t.run = s.run ∨ t.run = .awaitingKey) ∧ t.fault = s.fault

theorem exec_of_errorOf_eq_none {i : Instr} {s : State} (h : errorOf i s = none) :
    ∃ t, exec i s = .next t ∧ Continues s t := by
  have same {t : State} (hrun : t.run = s.run) (hfault : t.fault = s.fault) : Continues s t := ⟨.inl hrun, hfault⟩
  cases i
  case sys nnn => cases h
  case call nnn =>
    have hsp : s.sp.val ≠ 16 := by simpa [errorOf] using h
    exact ⟨_, exec_call_of_lt (by omega), same rfl rfl⟩
  case ret =>
    have hsp : s.sp.val ≠ 0 := by simpa [errorOf] using h
    exact ⟨_, exec_ret_of_pos (by omega), same rfl rfl⟩
  case ldB x | storeRegs x | loadRegs x | drw x y n =>
    refine ⟨_, withRange_of_inBounds ?_, same (by simp) (by simp)⟩
    simp only [errorOf, ite_eq_right_iff, reduceCtorEq, imp_false] at h
    simp only [inBounds_iff, bulkCount]
    omega
  case ldVxK x => exact ⟨_, rfl, .inr rfl, rfl⟩
  all_goals exact ⟨_, rfl, same (by simp) (by simp)⟩

/-- Every instruction has a next state. -/
theorem exec_total (i : Instr) (s : State) : ∃ t, exec i s = .next t := by
  cases h : errorOf i s with
  | some e => exact ⟨_, (exec_of_errorOf_eq_some h).trans (raiseIn_eq i e s)⟩
  | none =>
    obtain ⟨t, ht, -⟩ := exec_of_errorOf_eq_none h
    exact ⟨t, ht⟩

/-- Settles O42: by the row of the table that the instruction and the state select. -/
theorem errorsExactlyWhenTheTableSays : Obligations.ErrorsExactlyWhenTheTableSays := by
  intro i s hs
  cases h : errorOf i s with
  | some e => exact exists_raises (exec_of_errorOf_eq_some h)
  | none =>
    obtain ⟨t, ht, hrun, hfault⟩ := exec_of_errorOf_eq_none h
    refine ⟨t, ht, ?_, hfault⟩
    rcases hrun with hrun | hrun
    · rwa [hrun]
    · rw [hrun]; nofun

end Sys2Proof.Proofs
end

section
/-! What each step of the host's does to the core, said once (40_execution_cycle.md R120 to R126, R132), and what each
instruction leaves alone, said once for all 35; then the statements that are read off the two. -/

namespace Sys2Proof.Proofs

open Sys2Proof.Machine Sys2Proof.Claims

/-! ### What one step can do -/

/-- The state a Step with these inputs begins in. -/
abbrev begun (s : State) (inp : StepInputs) : State := s.beginOp.withInputs inp

/-- The seven things a step can do, by the host's operation and, for a Step, by RUN and the fetch. -/
inductive StepCase (s t : State) : Prop where
  | executes (inp : StepInputs) (i : Instr) (hop : s.nextOp = .step inp) (hi : NextExecutes s i)
      (h : exec i (begun s inp).advance = .next t)
  | fetchFails (inp : StepInputs) (e : ErrorKind) (w : Word) (hop : s.nextOp = .step inp) (hrun : s.run = .running)
      (hw : s.pc.toNat + 1 ≤ 4095 → w = s.mem.read s.pc.toNat ++ s.mem.read (s.pc.toNat + 1))
      (h : t = { begun s inp with run := .halted, fault := some { error := e, pc := s.pc, word := w } })
  | polls (inp : StepInputs) (hop : s.nextOp = .step inp) (hrun : s.run = .awaitingKey) (h : t = (begun s inp).pollKey)
  | idles (inp : StepInputs) (hop : s.nextOp = .step inp) (hrun : s.run = .halted) (h : t = begun s inp)
  | ticks (hop : s.nextOp = .tick) (h : t = s.beginOp.tick)
  | loads (rom : List Byte) (hop : s.nextOp = .loadRom rom) (h : t = s.beginOp.afterLoadRom rom)
  | resets (hop : s.nextOp = .reset) (h : t = s.beginOp.resetCore)

theorem inBounds_two_iff (a : Nat) : inBounds a 2 = true ↔ a + 1 ≤ 4095 := by
  rw [inBounds_iff]
  omega

/-- A Step of a running core executes an instruction or fails to fetch one. -/
theorem stepCase_of_runInstruction {s t : State} {inp : StepInputs} (hop : s.nextOp = .step inp)
    (hrun : s.run = .running) (h : runInstruction (begun s inp) = .next t) : StepCase s t := by
  rcases runInstruction_cases h with ⟨hb, i, hdec, hexec⟩ | ⟨-, -, hraise⟩ | ⟨hb, hraise⟩
  · exact .executes inp i hop ⟨⟨inp, _, hop, rfl⟩, hrun, (inBounds_two_iff _).mp hb, hdec⟩ hexec
  · cases hraise
    exact .fetchFails inp _ _ hop hrun (fun _ => rfl) rfl
  · cases hraise
    refine .fetchFails inp _ _ hop hrun (fun hpc => ?_) rfl
    have hpc' : inBounds (begun s inp).pc.toNat 2 = true := (inBounds_two_iff _).mpr hpc
    rw [hpc'] at hb
    cases hb

theorem stepCase_of_step {s t : State} (h : step s = .next t) : StepCase s t := by
  rcases step_cases h with ⟨inp, hop, hstep⟩ | ⟨hop, ht⟩ | ⟨rom, hop, ht⟩ | ⟨hop, ht⟩
  · cases hrun : (begun s inp).run with
    | running =>
      rw [runStep_of_running hrun] at hstep
      exact stepCase_of_runInstruction hop hrun hstep
    | awaitingKey =>
      rw [runStep_of_awaitingKey hrun] at hstep
      cases hstep
      exact .polls inp hop hrun rfl
    | halted =>
      rw [runStep_of_halted hrun] at hstep
      cases hstep
      exact .idles inp hop hrun rfl
  · exact .ticks hop ht
  · exact .loads rom hop ht
  · exact .resets hop ht

/-! ### What a Step does when its fetch and its word are known -/

theorem runInstruction_of_decodes {s : State} {i : Instr} (hb : inBounds s.pc.toNat 2 = true)
    (hdec : decodeWord s.fetchedWord = .ok i) : runInstruction s = exec i s.advance := by
  rw [runInstruction, if_pos hb, hdec]

theorem runInstruction_of_unknown {s : State} {e : DecodeReject} (hb : inBounds s.pc.toNat 2 = true)
    (hdec : decodeWord s.fetchedWord = .error e) :
    runInstruction s = raise .unknownOpcode s.pc s.fetchedWord s := by
  rw [runInstruction, if_pos hb, hdec]

theorem runInstruction_of_outside {s : State} (hb : inBounds s.pc.toNat 2 = false) :
    runInstruction s = raise .memoryOutOfBounds s.pc (Config.unspecifiedWord s.host.opCount) s := by
  rw [runInstruction, hb]
  rfl

theorem step_eq_runInstruction {s : State} {inp : StepInputs} (hop : s.nextOp = .step inp) (hrun : s.run = .running) :
    step s = runInstruction (begun s inp) :=
  (step_of_step hop).trans (runStep_of_running (s := begun s inp) hrun)

theorem step_of_decodes {s : State} {inp : StepInputs} {i : Instr} (hop : s.nextOp = .step inp)
    (hrun : s.run = .running) (hpc : s.pc.toNat + 1 ≤ 4095)
    (hdec : decodeWord (s.mem.read s.pc.toNat ++ s.mem.read (s.pc.toNat + 1)) = .ok i) :
    step s = exec i (begun s inp).advance :=
  (step_eq_runInstruction hop hrun).trans
    (runInstruction_of_decodes (s := begun s inp) ((inBounds_two_iff _).mpr hpc) hdec)

theorem step_of_unknown {s : State} {inp : StepInputs} {e : DecodeReject} (hop : s.nextOp = .step inp)
    (hrun : s.run = .running) (hpc : s.pc.toNat + 1 ≤ 4095)
    (hdec : decodeWord (s.mem.read s.pc.toNat ++ s.mem.read (s.pc.toNat + 1)) = .error e) :
    step s = raise .unknownOpcode s.pc (s.mem.read s.pc.toNat ++ s.mem.read (s.pc.toNat + 1)) (begun s inp) :=
  (step_eq_runInstruction hop hrun).trans
    (runInstruction_of_unknown (s := begun s inp) ((inBounds_two_iff _).mpr hpc) hdec)

theorem step_of_fetch_outside {s : State} {inp : StepInputs} (hop : s.nextOp = .step inp)
    (hrun : s.run = .running) (hpc : s.pc.toNat + 1 > 4095) :
    step s = raise .memoryOutOfBounds s.pc (Config.unspecifiedWord (s.host.opCount + 1)) (begun s inp) :=
  (step_eq_runInstruction hop hrun).trans
    (runInstruction_of_outside (s := begun s inp) (inBounds_false_of_gt ⟨by omega, hpc⟩))

/-- Settles O8: the Step begins, and its word decodes. -/
theorem stepRunsTheDecodedInstruction : Obligations.StepRunsTheDecodedInstruction := by
  intro s i inp rest ⟨hop, hrest⟩ hrun hpc hdec
  subst hrest
  refine step_of_decodes hop hrun hpc ?_
  rw [decode_cons_cons] at hdec
  cases hd : decodeWord (wordOfBytes (s.mem.read s.pc.toNat) (s.mem.read (s.pc.toNat + 1))) with
  | ok j =>
    rw [hd] at hdec
    cases hdec
    exact hd
  | error e =>
    rw [hd] at hdec
    cases hdec

/-- Settles O9: the word is the free value that the model records. -/
theorem fetchOutOfRangeHalts : Obligations.FetchOutOfRangeHalts := fun _ _ _ ⟨hop, _⟩ hrun hpc =>
  ⟨_, _, step_of_fetch_outside hop hrun hpc, rfl⟩

/-- Settles O10: the step is the taking of the error. -/
theorem unknownOpcodeHalts : Obligations.UnknownOpcodeHalts := by
  intro s inp rest w ⟨hop, _⟩ hrun hpc hw hdec
  subst hw
  exact ⟨_, step_of_unknown hop hrun hpc hdec, rfl⟩

theorem keepsV_writeV (s : State) (x : Reg) (b : Byte) : KeepsV [x] s (s.writeV x b) :=
  (onlyV_writeV s x b).1

theorem key_written (s : State) (x : Reg) (k : Key) :
    ((s.writeV x (BitVec.ofNat 8 k.val)).readV x).toNat = k.val := by
  have := k.isLt
  rw [State.readV_writeV_same, BitVec.toNat_ofNat]
  omega

/-- Settles O11: by whether the host supplies a key. -/
theorem keyPollDeliversOrWaits : Obligations.KeyPollDeliversOrWaits := by
  intro s inp rest ⟨hop, _⟩ hrun
  refine ⟨(begun s inp).pollKey, (step_of_step hop).trans (runStep_of_awaitingKey (s := begun s inp) hrun), ?_, ?_⟩
  · intro hkey
    rcases State.pollKey_cases (begun s inp) with ⟨-, ht⟩ | ⟨k, hk, -⟩
    · rw [ht]; rfl
    · rw [State.withInputs_host, hkey] at hk
      cases hk
  · intro k hkey
    rcases State.pollKey_cases (begun s inp) with ⟨hk, -⟩ | ⟨k', hk', ht⟩
    · rw [State.withInputs_host, hkey] at hk
      cases hk
    · rw [State.withInputs_host, hkey] at hk'
      cases hk'
      rw [ht]
      exact ⟨rfl, key_written (begun s inp) s.waitReg k, keepsV_writeV (begun s inp) s.waitReg _, rfl, rfl,
        fun _ => rfl, ⟨rfl, rfl⟩, ⟨rfl, rfl⟩, rfl, rfl, rfl, rfl⟩

/-- Settles O13: each of the host's operations has a next state, and so has each instruction. -/
theorem everyStepAnswersANextState : Obligations.EveryStepAnswersANextState := by
  intro s
  cases hop : s.nextOp with
  | tick => exact ⟨_, step_of_tick hop⟩
  | loadRom rom => exact ⟨_, step_of_loadRom hop⟩
  | reset => exact ⟨_, step_of_reset hop⟩
  | step inp =>
    cases hrun : s.run with
    | awaitingKey => exact ⟨_, (step_of_step hop).trans (runStep_of_awaitingKey (s := begun s inp) hrun)⟩
    | halted => exact ⟨_, (step_of_step hop).trans (runStep_of_halted (s := begun s inp) hrun)⟩
    | running =>
      by_cases hpc : s.pc.toNat + 1 ≤ 4095
      · cases hdec : decodeWord (s.mem.read s.pc.toNat ++ s.mem.read (s.pc.toNat + 1)) with
        | ok i => rw [step_of_decodes hop hrun hpc hdec]; exact exec_total i _
        | error e => exact ⟨_, step_of_unknown hop hrun hpc hdec⟩
      · exact ⟨_, step_of_fetch_outside hop hrun (by omega)⟩

/-! ### What each instruction leaves alone -/

/-- What no instruction changes unless its own rule says so: registers outside its destinations, memory, the
framebuffer, the timers, CONFIG, and RUN but for an error. -/
structure Frame (i : Instr) (s t : State) : Prop where
  regs : KeepsV (destRegs i) s t
  mem : KeepsMem s t ∨ (∃ x, i = .ldB x) ∨ ∃ x, i = .storeRegs x
  fb : t.fb = s.fb ∨ i = .cls ∨ ∃ x y n, i = .drw x y n
  dt : t.dt = s.dt ∨ ∃ x, i = .ldDtVx x
  st : t.st = s.st ∨ ∃ x, i = .ldStVx x
  config : t.config = s.config
  run : t.run = s.run ∨ t.run = .halted ∨ ∃ x, i = .ldVxK x ∧ t.waitReg = x

theorem keepsV_of_nil {s t : State} (h : KeepsV [] s t) (but : List Reg) : KeepsV but s t := fun r _ =>
  h r List.not_mem_nil

theorem frame_of_onlyV {i : Instr} {s t : State} (h : OnlyV (destRegs i) s t) : Frame i s t := by
  obtain ⟨hv, -, -, hmem, -, ⟨hdt, hst⟩, hfb, ⟨hrun, -⟩, hconfig, -⟩ := h
  exact ⟨hv, .inl hmem, .inl hfb, .inl hdt, .inl hst, hconfig, .inl hrun⟩

theorem frame_of_onlyPcAndStack {i : Instr} {s t : State} (h : OnlyPcAndStack s t) : Frame i s t := by
  obtain ⟨hv, -, hmem, ⟨hdt, hst⟩, hfb, ⟨hrun, -⟩, hconfig, -⟩ := h
  exact ⟨keepsV_of_nil hv _, .inl hmem, .inl hfb, .inl hdt, .inl hst, hconfig, .inl hrun⟩

theorem frame_of_onlyPc {i : Instr} {s t : State} (h : OnlyPc s t) : Frame i s t := by
  obtain ⟨hv, hi, hmem, -, htimers, hfb, hrun, hrest⟩ := h
  exact frame_of_onlyPcAndStack ⟨hv, hi, hmem, htimers, hfb, hrun, hrest⟩

theorem frame_of_onlyI {i : Instr} {s t : State} (h : OnlyI s t) : Frame i s t := by
  obtain ⟨hv, -, hmem, -, ⟨hdt, hst⟩, hfb, ⟨hrun, -⟩, hconfig, -⟩ := h
  exact ⟨keepsV_of_nil hv _, .inl hmem, .inl hfb, .inl hdt, .inl hst, hconfig, .inl hrun⟩

theorem frame_of_raiseIn {i j : Instr} {e : ErrorKind} {s t : State} (h : raiseIn j e s = .next t) : Frame i s t := by
  obtain ⟨hrun, -, -, hv, -, hmem, -, ⟨hdt, hst⟩, hfb, -, hconfig, -⟩ := raises_of_raiseIn h
  exact ⟨keepsV_of_nil hv _, .inl hmem, .inl hfb, .inl hdt, .inl hst, hconfig, .inr (.inl hrun)⟩

theorem frame_of_withRange {i j : Instr} {len : Nat} {s k t : State} (h : withRange j len s k = .next t)
    (hk : Frame i s k) : Frame i s t := by
  rcases withRange_eq_next h with ⟨-, rfl⟩ | ⟨-, h⟩
  · exact hk
  · exact frame_of_raiseIn h

theorem keepsV_writeVFlag (s : State) (x : Reg) (b flag : Byte) : KeepsV [x, vf] s (s.writeVFlag x b flag) := by
  intro r hr
  simp only [List.mem_cons, List.not_mem_nil, or_false, not_or] at hr
  rw [State.readV_writeVFlag, if_neg hr.2, if_neg hr.1]

/-- The frame of every instruction that writes a result and a flag. -/
theorem onlyV_writeVFlag (s : State) (x : Reg) (b flag : Byte) : OnlyV [x, vf] s (s.writeVFlag x b flag) := by
  have hv : KeepsV [x, vf] s (s.writeVFlag x b flag) := keepsV_writeVFlag s x b flag
  simp [OnlyV, hv, KeepsMem, KeepsStack, KeepsTimers, KeepsFb, KeepsRun, KeepsRest]

theorem keepsV_loadedRegs (s : State) (x : Reg) (a : Word) :
    KeepsV (destRegs (.loadRegs x)) s ((s.setV (s.loadedRegs x)).setI a) := by
  intro r hr
  have hx : ¬ r ≤ x := by simpa [destRegs] using hr
  rw [State.setI_readV, State.setV_readV, State.loadedRegs_get, if_neg hx]

/-- A bulk load changes general registers and I alone. -/
theorem frame_loadedRegs (s : State) (x : Reg) (a : Word) :
    Frame (.loadRegs x) s ((s.setV (s.loadedRegs x)).setI a) :=
  ⟨keepsV_loadedRegs s x a, .inl fun _ => by simp, by simp, by simp, by simp, by simp, by simp⟩

/-- A drawing changes the framebuffer and VF alone. -/
theorem frame_drawn (s : State) (x y : Reg) (n : Nibble) (fb : Framebuffer) (flag : Byte) :
    Frame (.drw x y n) s ((s.setFb fb).writeV vf flag) :=
  ⟨keepsV_writeV (s.setFb fb) vf flag, .inl fun _ => rfl, .inr (.inr ⟨x, y, n, rfl⟩), .inl rfl, .inl rfl, rfl, .inl rfl⟩

theorem exec_frame {i : Instr} {s t : State} (h : exec i s = .next t) : Frame i s t := by
  cases i
  case sys nnn => exact frame_of_raiseIn h
  case call nnn =>
    by_cases hsp : s.sp.val < 16
    · rw [exec_call_of_lt hsp] at h
      cases h
      exact frame_of_onlyPcAndStack (onlyPcAndStack_afterCall nnn s hsp)
    · exact frame_of_raiseIn ((exec_call_of_full (by omega)).symm.trans h)
  case ret =>
    by_cases hsp : 0 < s.sp.val
    · rw [exec_ret_of_pos hsp] at h
      cases h
      exact frame_of_onlyPcAndStack (onlyPcAndStack_afterRet s hsp)
    · exact frame_of_raiseIn ((exec_ret_of_empty (by omega)).symm.trans h)
  case jp nnn | jpV0 nnn => cases h; exact frame_of_onlyPc (onlyPc_setPc s _)
  case seByte x kk | sneByte x kk | seReg x y | sneReg x y | skp x | sknp x =>
    cases h
    exact frame_of_onlyPc (onlyPc_skipIf s _)
  case ldByte x kk | addByte x kk | ldReg x y | orReg x y | andReg x y | xorReg x y | rnd x kk | ldVxDt x =>
    cases h
    exact frame_of_onlyV (onlyV_writeV s x _)
  case addReg x y | subReg x y | subnReg x y | shr x y | shl x y =>
    cases h
    exact frame_of_onlyV (onlyV_writeVFlag s x _ _)
  case ldI nnn | addI x | ldF x => cases h; exact frame_of_onlyI (onlyI_setI s _)
  case ldB x =>
    exact frame_of_withRange h
      ⟨fun _ _ => rfl, .inr (.inl ⟨x, rfl⟩), .inl rfl, .inl rfl, .inl rfl, rfl, .inl rfl⟩
  case storeRegs x =>
    exact frame_of_withRange h
      ⟨fun _ _ => rfl, .inr (.inr ⟨x, rfl⟩), .inl rfl, .inl rfl, .inl rfl, rfl, .inl rfl⟩
  case loadRegs x => exact frame_of_withRange h (frame_loadedRegs s x _)
  case drw x y n => exact frame_of_withRange h (frame_drawn s x y n _ _)
  case cls =>
    cases h
    exact ⟨fun _ _ => rfl, .inl fun _ => rfl, .inr (.inl rfl), .inl rfl, .inl rfl, rfl, .inl rfl⟩
  case ldVxK x =>
    cases h
    exact ⟨fun _ _ => rfl, .inl fun _ => rfl, .inl rfl, .inl rfl, .inl rfl, rfl, .inr (.inr ⟨x, rfl, rfl⟩)⟩
  case ldDtVx x =>
    cases h
    exact ⟨fun _ _ => rfl, .inl fun _ => rfl, .inl rfl, .inr ⟨x, rfl⟩, .inl rfl, rfl, .inl rfl⟩
  case ldStVx x =>
    cases h
    exact ⟨fun _ _ => rfl, .inl fun _ => rfl, .inl rfl, .inl rfl, .inr ⟨x, rfl⟩, rfl, .inl rfl⟩

/-- Settles O45: the registers of the frame. -/
theorem registersOutsideDestinationsKept : Obligations.RegistersOutsideDestinationsKept := fun _ _ _ h =>
  (exec_frame h).regs

/-- Settles O46: outside the frame's two exceptions memory is the same, and a run of stores stays in its range. -/
theorem onlyTheTwoStoresChangeMemory : Obligations.OnlyTheTwoStoresChangeMemory := by
  intro i s t a h ha
  rcases (exec_frame h).mem with hmem | ⟨x, rfl⟩ | ⟨x, rfl⟩
  · exact absurd (hmem a) ha
  · rw [exec_ldB] at h
    refine .inl ⟨x, rfl, ?_⟩
    by_contra hout
    rcases withRange_eq_next h with ⟨-, rfl⟩ | ⟨-, h⟩
    · have hlen : (bcdDigits (s.readV x)).length = 3 := rfl
      exact ha (Memory.read_storeBytes_outside _ _ _ _ (by rw [hlen]; omega))
    · exact ha (by rw [raiseIn_mem h])
  · rw [exec_storeRegs] at h
    refine .inr ⟨x, rfl, ?_⟩
    by_contra hout
    rcases withRange_eq_next h with ⟨-, rfl⟩ | ⟨-, h⟩
    · exact ha (Memory.read_storeBytes_outside _ _ _ _ (by rw [State.storedRegs_length]; omega))
    · exact ha (by rw [raiseIn_mem h])

/-- Settles O48: an error and a quiet instruction leave the stack alone. -/
theorem stackChangesOnlyByCallAndRet : Obligations.StackChangesOnlyByCallAndRet := by
  intro i s t h hkeeps
  rcases exec_cases h with ⟨e, hraise⟩ | ⟨nnn, rfl⟩ | rfl | hquiet
  · rw [raiseIn_eq] at hraise
    cases hraise
    exact absurd ⟨rfl, rfl⟩ hkeeps
  · exact .inr ⟨nnn, rfl⟩
  · exact .inl rfl
  · exact absurd ⟨hquiet.stack, hquiet.sp⟩ hkeeps

/-! ### What each step leaves alone -/

/-- A Tick leaves everything but the timers alone. -/
theorem tick_eq (s : State) : s.tick = { s with dt := s.tick.dt, st := s.tick.st } := by
  rcases State.tick_cases s with ⟨-, h⟩ | ⟨-, h⟩ <;> rw [h]

/-- A LoadRom leaves everything but memory alone. -/
theorem afterLoadRom_eq (s : State) (rom : List Byte) :
    s.afterLoadRom rom = { s with mem := (s.afterLoadRom rom).mem } := by
  rcases State.afterLoadRom_cases s rom with ⟨-, h⟩ | ⟨-, -, h⟩ <;> rw [h]
  rfl

/-- A key poll leaves everything but the general registers and RUN alone. -/
theorem pollKey_eq (s : State) : s.pollKey = { s with v := s.pollKey.v, run := s.pollKey.run } := by
  rcases State.pollKey_cases s with ⟨-, h⟩ | ⟨k, -, h⟩ <;> rw [h]
  rfl

/-- Settles O47: only an instruction's own frame and Reset let the framebuffer change. -/
theorem framebufferChangesOnlyByClsDrwReset : Obligations.FramebufferChangesOnlyByClsDrwReset := by
  intro s t h hfb
  cases stepCase_of_step h with
  | executes inp i hop hi hexec =>
    rcases (exec_frame hexec).fb with hsame | rfl | ⟨x, y, n, rfl⟩
    · exact absurd hsame hfb
    · exact .inr (.inl hi)
    · exact .inr (.inr ⟨x, y, n, hi⟩)
  | fetchFails inp e w hop hrun hw ht => rw [ht] at hfb; exact absurd rfl hfb
  | polls inp hop hrun ht => rw [ht, pollKey_eq] at hfb; exact absurd rfl hfb
  | idles inp hop hrun ht => rw [ht] at hfb; exact absurd rfl hfb
  | ticks hop ht => rw [ht, tick_eq] at hfb; exact absurd rfl hfb
  | loads rom hop ht => rw [ht, afterLoadRom_eq] at hfb; exact absurd rfl hfb
  | resets hop ht => exact .inl hop

/-- Settles O49: only an instruction's own frame, Tick and Reset let a timer change. -/
theorem timersChangeOnlyByTickAndTheirLoads : Obligations.TimersChangeOnlyByTickAndTheirLoads := by
  intro s t h
  have same {u : State} (hdt : u.dt = s.dt) (hst : u.st = s.st) {P Q : Prop} :
      (u.dt ≠ s.dt → P) ∧ (u.st ≠ s.st → Q) := ⟨absurd hdt, absurd hst⟩
  cases stepCase_of_step h with
  | executes inp i hop hi hexec =>
    constructor
    · intro hdt
      rcases (exec_frame hexec).dt with hsame | ⟨x, rfl⟩
      · exact absurd hsame hdt
      · exact .inr (.inr ⟨x, hi⟩)
    · intro hst
      rcases (exec_frame hexec).st with hsame | ⟨x, rfl⟩
      · exact absurd hsame hst
      · exact .inr (.inr ⟨x, hi⟩)
  | fetchFails inp e w hop hrun hw ht => rw [ht]; exact same rfl rfl
  | polls inp hop hrun ht => rw [ht, pollKey_eq]; exact same rfl rfl
  | idles inp hop hrun ht => rw [ht]; exact same rfl rfl
  | ticks hop ht => exact ⟨fun _ => .inl hop, fun _ => .inl hop⟩
  | loads rom hop ht => rw [ht, afterLoadRom_eq]; exact same rfl rfl
  | resets hop ht => exact ⟨fun _ => .inr (.inl hop), fun _ => .inr (.inl hop)⟩

/-- Settles O50: every instruction's frame keeps CONFIG, and so does every operation of the host's. -/
theorem configNeverChanges : Obligations.ConfigNeverChanges := by
  intro s t h
  cases stepCase_of_step h with
  | executes inp i hop hi hexec => exact (exec_frame hexec).config
  | fetchFails inp e w hop hrun hw ht => rw [ht]; rfl
  | polls inp hop hrun ht => rw [ht, pollKey_eq]; rfl
  | idles inp hop hrun ht => rw [ht]; rfl
  | ticks hop ht => rw [ht, tick_eq]; rfl
  | loads rom hop ht => rw [ht, afterLoadRom_eq]; rfl
  | resets hop ht => rw [ht]; rfl

/-- Settles O12: of the operations other than Reset, a Halted core admits those that do nothing. -/
theorem haltedCoreChangesOnlyByReset : Obligations.HaltedCoreChangesOnlyByReset := by
  intro s t hhalt hreset h
  cases stepCase_of_step h with
  | executes inp i hop hi hexec =>
    obtain ⟨-, hrun, -⟩ := hi
    rw [hhalt] at hrun
    cases hrun
  | fetchFails inp e w hop hrun hw ht => rw [hhalt] at hrun; cases hrun
  | polls inp hop hrun ht => rw [hhalt] at hrun; cases hrun
  | idles inp hop hrun ht => rw [ht]; rfl
  | ticks hop ht =>
    rcases State.tick_cases s.beginOp with ⟨-, hsame⟩ | ⟨hrun, -⟩
    · rw [ht, hsame]; rfl
    · exact absurd hhalt hrun
  | loads rom hop ht =>
    rcases State.afterLoadRom_cases s.beginOp rom with ⟨-, hsame⟩ | ⟨-, hrun, -⟩
    · rw [ht, hsame]; rfl
    · exact absurd hhalt hrun
  | resets hop ht => exact absurd hop hreset

/-- Settles O14: an instruction that starts Running waits afterwards only if it is LD Vx,K, and a Step ends the wait
only with a key event. -/
theorem awaitingKeyEnteredAndLeft : Obligations.AwaitingKeyEnteredAndLeft := by
  intro s t h
  have kept {u : State} (hrun : u.run = s.run) {P Q : Prop} :
      (u.run = .awaitingKey → s.run = .awaitingKey ∨ P) ∧ (s.run = .awaitingKey → u.run ≠ .awaitingKey → Q) :=
    ⟨fun hu => .inl (hrun ▸ hu), fun hs hu => absurd (hrun.trans hs) hu⟩
  cases stepCase_of_step h with
  | executes inp i hop hi hexec =>
    have hrun : s.run = .running := hi.2.1
    refine ⟨fun ht => .inr ?_, fun hs => by rw [hs] at hrun; cases hrun⟩
    rcases (exec_frame hexec).run with hsame | hhalt | ⟨x, rfl, hx⟩
    · rw [ht, State.advance_run, State.withInputs_run, State.beginOp_run, hrun] at hsame
      cases hsame
    · rw [ht] at hhalt
      cases hhalt
    · exact ⟨x, hi, hx⟩
  | fetchFails inp e w hop hrun hw ht =>
    rw [ht]
    exact ⟨nofun, fun hs => by rw [hs] at hrun; cases hrun⟩
  | polls inp hop hrun ht =>
    refine ⟨fun _ => .inl hrun, fun _ hleft => .inr ?_⟩
    rcases State.pollKey_cases (begun s inp) with ⟨-, hsame⟩ | ⟨k, hk, -⟩
    · rw [ht, hsame] at hleft
      exact absurd hrun hleft
    · exact ⟨inp, _, k, ⟨hop, rfl⟩, hk⟩
  | idles inp hop hrun ht => rw [ht]; exact kept rfl
  | ticks hop ht => rw [ht, tick_eq]; exact kept rfl
  | loads rom hop ht => rw [ht, afterLoadRom_eq]; exact kept rfl
  | resets hop ht =>
    rw [ht]
    exact ⟨nofun, fun _ _ => .inl hop⟩

/-- Settles O43: the instruction that halts the core is one whose error the table gives, and its word is its
encoding. -/
theorem fatalErrorsArePrecise : Obligations.FatalErrorsArePrecise := by
  intro s t inp rest ⟨hop, _⟩ hrun h hhalt
  cases stepCase_of_step h with
  | executes inp' i hop' hi hexec =>
    obtain ⟨-, -, hpc, hdec⟩ := hi
    cases he : errorOf i (begun s inp').advance with
    | none =>
      obtain ⟨u, hu, hrun', -⟩ := exec_of_errorOf_eq_none he
      rw [hexec] at hu
      cases hu
      rw [hhalt, State.advance_run, State.withInputs_run, State.beginOp_run, hrun] at hrun'
      rcases hrun' with hrun' | hrun' <;> cases hrun'
    | some e =>
      rw [exec_of_errorOf_eq_some he, raiseIn_eq] at hexec
      cases hexec
      refine ⟨e, encodeWord i, ?_, fun _ => (encodeOfDecodeIsTheWord _ i hdec).1⟩
      simp [SameCore]
  | fetchFails inp' e w hop' hrun' hw ht => rw [ht]; exact ⟨e, w, rfl, hw⟩
  | polls inp' hop' hrun' ht => rw [hrun] at hrun'; cases hrun'
  | idles inp' hop' hrun' ht => rw [hrun] at hrun'; cases hrun'
  | ticks hop' ht => rw [hop] at hop'; cases hop'
  | loads rom hop' ht => rw [hop] at hop'; cases hop'
  | resets hop' ht => rw [hop] at hop'; cases hop'

end Sys2Proof.Proofs
end

section
/-! The call stack along a run (41_control_flow.md R145) and the legal states (10_state.md R27, R28, R35;
60_exceptions.md R251): an entry below SP keeps its value through every step that leaves it below SP, and every step
leads from a legal state to a legal state. -/

namespace Sys2Proof.Proofs

open Sys2Proof.Machine Sys2Proof.Claims

/-! ### Live stack entries -/

/-- No instruction changes an entry below SP: a push writes the one at SP. -/
theorem exec_keeps_entry {i : Instr} {s t : State} (h : exec i s = .next t) {k : Fin 16} (hk : k.val < s.sp.val) :
    t.stack[k] = s.stack[k] := by
  rcases exec_cases h with ⟨e, hraise⟩ | ⟨nnn, rfl⟩ | rfl | hquiet
  · cases hraise
    rfl
  · rcases exec_call_cases h with ⟨u, hpush, rfl⟩ | ⟨-, hraise⟩
    · obtain ⟨-, -, hstack, -⟩ := State.push_eq_some hpush
      rw [State.setPc_stack, hstack, if_neg (by omega)]
    · cases hraise
      rfl
  · rcases exec_ret_cases h with ⟨a, u, hpop, rfl⟩ | ⟨-, hraise⟩
    · obtain ⟨-, -, hu⟩ := State.pop_eq_some hpop
      rw [← hu]
      rfl
    · cases hraise
      rfl
  · rw [hquiet.stack]

/-- An entry that is below SP before and after a step keeps its value; only Reset clears entries, and it empties the
stack. -/
theorem step_keeps_entry {s t : State} (h : step s = .next t) {k : Fin 16} (hs : k.val < s.sp.val)
    (ht : k.val < t.sp.val) : t.stack[k] = s.stack[k] := by
  cases stepCase_of_step h with
  | executes inp i hop hi hexec => exact exec_keeps_entry hexec hs
  | fetchFails inp e w hop hrun hw heq => rw [heq]; rfl
  | polls inp hop hrun heq => rw [heq, pollKey_eq]; rfl
  | idles inp hop hrun heq => rw [heq]; rfl
  | ticks hop heq => rw [heq, tick_eq]; rfl
  | loads rom hop heq => rw [heq, afterLoadRom_eq]; rfl
  | resets hop heq =>
    rw [heq] at ht
    exact absurd ht (Nat.not_lt_zero _)

theorem lt_sp_of_staysAbove {d : Nat} {s t : State} (h : StaysAbove d s t) : d < t.sp.val := by
  cases h <;> assumption

theorem staysAbove_keeps_entry {k : Fin 16} {s t : State} (h : StaysAbove k.val s t) : t.stack[k] = s.stack[k] := by
  induction h with
  | here _ => rfl
  | next hrun hstep hu ih => exact (step_keeps_entry hstep (lt_sp_of_staysAbove hrun) hu).trans ih

/-- Settles O20: the entry that CALL pushed keeps its value above depth d, and the RET at depth d + 1 pops it. -/
theorem callReturnStackDiscipline : Obligations.CallReturnStackDiscipline := by
  intro nnn s t u v hroom hcall hstays hdepth hret
  obtain ⟨k, hk⟩ : ∃ k : Fin 16, k.val = s.sp.val := ⟨⟨s.sp.val, hroom⟩, rfl⟩
  rw [exec_call_of_lt hroom] at hcall
  cases hcall
  have hpos : 0 < u.sp.val := by omega
  rw [exec_ret_of_pos hpos] at hret
  cases hret
  constructor
  · calc (afterRet u hpos).pc = u.stack[k] := pc_afterRet hpos (by omega)
      _ = (afterCall nnn s hroom).stack[k] := staysAbove_keeps_entry (hk ▸ hstays)
      _ = s.pc := (stack_afterCall nnn s hroom k).trans (if_pos hk)
  · exact Fin.ext (show u.sp.val - 1 = s.sp.val by omega)

/-! ### Legal states -/

/-- Every live stack entry is a return address. -/
def LiveEntriesInRange (s : State) : Prop := ∀ k : Fin 16, k.val < s.sp.val → s.stack[k].toNat ≤ memSize

/-- The advance of pc past an instruction in memory does not wrap. -/
theorem add_two_toNat {a : Word} (h : a.toNat ≤ memSize) : (a + 2).toNat = a.toNat + 2 := by
  have htwo : (2 : Word).toNat = 2 := rfl
  rw [BitVec.toNat_add, htwo]
  unfold memSize at h
  omega

/-- pc stays in the range of R27: the address after an instruction in memory is at most 4096, as is a return address,
and no jump goes above 0x10FE. -/
theorem exec_pc_le {i : Instr} {s t : State} (hlo : 2 ≤ s.pc.toNat) (hhi : s.pc.toNat ≤ memSize)
    (hlive : LiveEntriesInRange s) (h : exec i s = .next t) : t.pc.toNat ≤ pcMax := by
  have hkept : s.pc.toNat ≤ pcMax := by simp only [memSize, pcMax] at *; omega
  have hraised : (s.pc - 2).toNat ≤ pcMax := by
    rw [BitVec.toNat_sub_of_le (by rwa [BitVec.le_def])]
    omega
  have hskip (c : Bool) : (s.skipIf c).pc.toNat ≤ pcMax := by
    rw [State.skipIf_pc]
    split
    · rw [add_two_toNat hhi]
      simp only [memSize, pcMax] at *
      omega
    · exact hkept
  have hguarded {j : Instr} {len : Nat} {k : State} (hw : withRange j len s k = .next t) (hk : k.pc = s.pc) :
      t.pc.toNat ≤ pcMax := by
    rcases withRange_eq_next hw with ⟨-, rfl⟩ | ⟨-, hraise⟩
    · rwa [hk]
    · cases hraise
      exact hraised
  cases i
  case sys nnn => cases h; exact hraised
  case jp nnn =>
    cases h
    rw [State.setPc_pc, zextAddr_toNat]
    exact le_trans nnn.isLt.le (by decide)
  case jpV0 nnn =>
    cases h
    rw [State.setPc_pc, zextAddr_add_zextByte_toNat]
    have := nnn.isLt
    have := (s.readV 0).isLt
    unfold pcMax
    omega
  case call nnn =>
    by_cases hsp : s.sp.val < 16
    · rw [exec_call_of_lt hsp] at h
      cases h
      change (zextAddr nnn).toNat ≤ pcMax
      rw [zextAddr_toNat]
      exact le_trans nnn.isLt.le (by decide)
    · rw [exec_call_of_full (by omega)] at h
      cases h
      exact hraised
  case ret =>
    by_cases hsp : 0 < s.sp.val
    · rw [exec_ret_of_pos hsp] at h
      cases h
      have hk : s.sp.val - 1 < 16 := by omega
      exact le_trans (hlive ⟨s.sp.val - 1, hk⟩ (by simp only; omega)) (by decide)
    · rw [exec_ret_of_empty (by omega)] at h
      cases h
      exact hraised
  case ldB x | storeRegs x | loadRegs x | drw x y n => exact hguarded h (by simp)
  case seByte x kk | sneByte x kk | seReg x y | sneReg x y | skp x | sknp x => cases h; exact hskip _
  all_goals
    cases h
    exact hkept

theorem exec_liveEntriesInRange {i : Instr} {s t : State} (hpc : s.pc.toNat ≤ memSize) (hlive : LiveEntriesInRange s)
    (h : exec i s = .next t) : LiveEntriesInRange t := by
  intro k hk
  by_cases hks : k.val < s.sp.val
  · rw [exec_keeps_entry h hks]
    exact hlive k hks
  · rcases exec_cases h with ⟨e, hraise⟩ | ⟨nnn, rfl⟩ | rfl | hquiet
    · cases hraise
      exact absurd hk hks
    · by_cases hsp : s.sp.val < 16
      · rw [exec_call_of_lt hsp] at h
        cases h
        have hks' : k.val = s.sp.val := by
          change k.val < s.sp.val + 1 at hk
          omega
        rwa [stack_afterCall, if_pos hks']
      · rw [exec_call_of_full (by omega)] at h
        cases h
        exact absurd hk hks
    · by_cases hsp : 0 < s.sp.val
      · rw [exec_ret_of_pos hsp] at h
        cases h
        change k.val < s.sp.val - 1 at hk
        omega
      · rw [exec_ret_of_empty (by omega)] at h
        cases h
        exact absurd hk hks
    · rw [hquiet.sp] at hk
      exact absurd hk hks

theorem exec_halted_iff_fault {i : Instr} {s t : State} (hrun : s.run = .running) (hfault : s.fault = none)
    (h : exec i s = .next t) : t.run = .halted ↔ t.fault.isSome = true := by
  cases he : errorOf i s with
  | some e =>
    rw [exec_of_errorOf_eq_some he] at h
    cases h
    simp
  | none =>
    obtain ⟨u, hu, hrun', hfault'⟩ := exec_of_errorOf_eq_none he
    rw [h] at hu
    cases hu
    rw [hfault', hfault]
    rcases hrun' with hrun' | hrun' <;> simp [hrun', hrun]

/-- An instruction executed in a legal state leads to a legal state. -/
theorem legal_of_exec {s t : State} {inp : StepInputs} {i : Instr} (hs : Legal s) (hi : NextExecutes s i)
    (h : exec i (begun s inp).advance = .next t) : Legal t := by
  obtain ⟨-, hrun, hpc, -⟩ := hi
  have hpc' : (begun s inp).advance.pc.toNat = s.pc.toNat + 2 :=
    add_two_toNat (a := s.pc) (by unfold memSize; omega)
  have hfault : s.fault = none := by
    have := hs.fault.not
    simpa [hrun] using this
  have hhi : (begun s inp).advance.pc.toNat ≤ memSize := by unfold memSize; omega
  have hmem : (begun s inp).advance.mem.wf = true := hs.mem
  have hlive : LiveEntriesInRange (begun s inp).advance := hs.stack
  have hrun' : (begun s inp).advance.run = .running := hrun
  exact ⟨exec_mem_wf hmem h, exec_pc_le (by omega) hhi hlive h, exec_liveEntriesInRange hhi hlive h,
    exec_halted_iff_fault hrun' hfault h⟩

theorem legal_resetCore (s : State) : Legal s.resetCore :=
  ⟨rfl, show (0x200 : Word).toNat ≤ pcMax by decide, fun _ hk => absurd hk (Nat.not_lt_zero _), by simp⟩

/-- LoadRom keeps the legal states: the ROM ends at the last address of memory. -/
theorem legal_afterLoadRom {s : State} (hs : Legal s) (rom : List Byte) : Legal (s.afterLoadRom rom) := by
  rcases State.afterLoadRom_cases s rom with ⟨-, hsame⟩ | ⟨hlen, hrun, hload⟩
  · rwa [hsame]
  · have hfits : romBase + rom.length ≤ memSize := by unfold romMax memSize romBase at *; omega
    rw [hload]
    exact ⟨Memory.wf_storeBytes hfits hs.mem, hs.pc, hs.stack, hs.fault⟩

/-- Settles O44: by what the step does. -/
theorem legalKeptByEveryStep : Obligations.LegalKeptByEveryStep := by
  intro s t hs h
  cases stepCase_of_step h with
  | executes inp i hop hi hexec => exact legal_of_exec hs hi hexec
  | fetchFails inp e w hop hrun hw ht =>
    rw [ht]
    exact ⟨hs.mem, hs.pc, hs.stack, by simp⟩
  | polls inp hop hrun ht =>
    rcases State.pollKey_cases (begun s inp) with ⟨-, hsame⟩ | ⟨k, -, hkey⟩
    · rw [ht, hsame]
      exact ⟨hs.mem, hs.pc, hs.stack, hs.fault⟩
    · rw [ht, hkey]
      have hfault := hs.fault
      rw [hrun] at hfault
      exact ⟨hs.mem, hs.pc, hs.stack, by simpa using hfault⟩
  | idles inp hop hrun ht => rw [ht]; exact ⟨hs.mem, hs.pc, hs.stack, hs.fault⟩
  | ticks hop ht => rw [ht, tick_eq]; exact ⟨hs.mem, hs.pc, hs.stack, hs.fault⟩
  | loads rom hop ht =>
    have hbegun : Legal s.beginOp := ⟨hs.mem, hs.pc, hs.stack, hs.fault⟩
    rw [ht]
    exact legal_afterLoadRom hbegun rom
  | resets hop ht => rw [ht]; exact legal_resetCore _

/-- Settles O3: Reset of the reset state is the reset state. -/
theorem resetStateIsLegal : Obligations.ResetStateIsLegal := legal_resetCore State.reset

/-- A launch state is the core after Reset with the ROM stored (70_reset_and_hazards.md R273). -/
theorem launched_iff {rom : List Byte} {s : State} :
    Launched rom s ↔ rom.length ≤ romMax ∧ s.resetCore.setMem (Memory.storeBytes [] romBase rom) = s := by
  unfold Launched State.loadRom
  by_cases hlen : rom.length > romMax
  · simp [hlen]
  · rw [if_neg hlen, if_neg (by simp)]
    simp [Nat.le_of_not_lt hlen]

/-- Settles O55: the ROM's bytes are stored within memory, and all else is as after Reset. -/
theorem launchStatesAreLegal : Obligations.LaunchStatesAreLegal := by
  intro rom s h
  obtain ⟨hlen, hs⟩ := launched_iff.mp h
  have hlegal : Legal (s.resetCore.setMem (Memory.storeBytes [] romBase rom)) := by
    have hfits : romBase + rom.length ≤ memSize := by unfold romMax memSize romBase at *; omega
    have hreset := legal_resetCore s
    exact ⟨Memory.wf_storeBytes hfits hreset.mem, hreset.pc, hreset.stack, hreset.fault⟩
  rw [hs] at hlegal
  refine ⟨hlegal, ?_⟩
  rw [← hs]
  exact ⟨rfl, rfl, rfl⟩

end Sys2Proof.Proofs
end

section
/-! What an instruction does not read: the sound timer (10_state.md R31), the inputs of its Step unless it samples them
(40_execution_cycle.md R127), and the stack entries at index SP and above (10_state.md R28). Each is an update of the
state that every other instruction commutes with. -/

namespace Sys2Proof.Proofs

open Sys2Proof.Machine Sys2Proof.Claims

/-! ### Updates that commute with an instruction -/

/-- An outcome with its next state, if it has one, updated by `f`. -/
def mapNext (f : State → State) : Host.Outcome State Fault Refusal → Host.Outcome State Fault Refusal
  | .next s => .next (f s)
  | .fault r => .fault r
  | .refused r => .refused r

theorem skipIf_comm {f : State → State} {s : State} (h : ∀ a, (f s).setPc a = f (s.setPc a)) (hpc : (f s).pc = s.pc)
    (c : Bool) : Host.Outcome.next ((f s).skipIf c) = mapNext f (.next (s.skipIf c)) := by
  cases c
  · rfl
  · exact congrArg Host.Outcome.next ((congrArg (fun a => (f s).setPc (a + 2)) hpc).trans (h _))

theorem withRange_comm {f : State → State} {i : Instr} {len : Nat} {s k k' : State} (hi : (f s).i = s.i)
    (hk : k' = f k) (hraise : ∀ e, raiseIn i e (f s) = mapNext f (raiseIn i e s)) :
    withRange i len (f s) k' = mapNext f (withRange i len s k) := by
  unfold withRange
  rw [hi, hk]
  split
  · rfl
  · exact hraise _

theorem exec_call_comm {f : State → State} {nnn : Addr12} {s : State} (hsp : (f s).sp = s.sp)
    (hcall : ∀ h h', afterCall nnn (f s) h' = f (afterCall nnn s h))
    (hraise : ∀ e, raiseIn (.call nnn) e (f s) = mapNext f (raiseIn (.call nnn) e s)) :
    exec (.call nnn) (f s) = mapNext f (exec (.call nnn) s) := by
  by_cases h : s.sp.val < 16
  · have h' : (f s).sp.val < 16 := by rwa [hsp]
    rw [exec_call_of_lt h, exec_call_of_lt h', hcall h h']
    rfl
  · have hfull : s.sp.val = 16 := by omega
    rw [exec_call_of_full hfull, exec_call_of_full (by rwa [hsp])]
    exact hraise _

theorem exec_ret_comm {f : State → State} {s : State} (hsp : (f s).sp = s.sp)
    (hret : ∀ h h', afterRet (f s) h' = f (afterRet s h))
    (hraise : ∀ e, raiseIn .ret e (f s) = mapNext f (raiseIn .ret e s)) :
    exec .ret (f s) = mapNext f (exec .ret s) := by
  by_cases h : 0 < s.sp.val
  · have h' : 0 < (f s).sp.val := by rwa [hsp]
    rw [exec_ret_of_pos h, exec_ret_of_pos h', hret h h']
    rfl
  · have hempty : s.sp.val = 0 := by omega
    rw [exec_ret_of_empty hempty, exec_ret_of_empty (by rwa [hsp])]
    exact hraise _

/-! ### The sound timer -/

theorem exec_setSt {i : Instr} (hi : ∀ x, i ≠ .ldStVx x) (s : State) (b : Byte) :
    exec i (s.setSt b) = mapNext (·.setSt b) (exec i s) := by
  cases i
  case ldStVx x => exact absurd rfl (hi x)
  case call nnn => exact exec_call_comm (f := (·.setSt b)) rfl (fun _ _ => rfl) fun _ => rfl
  case ret => exact exec_ret_comm (f := (·.setSt b)) rfl (fun _ _ => rfl) fun _ => rfl
  case ldB x | storeRegs x | loadRegs x | drw x y n => exact withRange_comm (f := (·.setSt b)) rfl rfl fun _ => rfl
  case seByte x kk | sneByte x kk | seReg x y | sneReg x y | skp x | sknp x =>
    exact skipIf_comm (f := (·.setSt b)) (fun _ => rfl) rfl _
  all_goals rfl

/-- Settles O51: every instruction but LD ST,Vx commutes with a write of ST, and LD ST,Vx overwrites it. -/
theorem soundTimerIsUnread : Obligations.SoundTimerIsUnread := by
  intro i s t b h
  by_cases hi : ∃ x, i = .ldStVx x
  · rw [if_pos hi]
    obtain ⟨x, rfl⟩ := hi
    cases h
    rfl
  · rw [if_neg hi]
    have hcomm := exec_setSt (fun x hx => hi ⟨x, hx⟩) s b
    rw [h] at hcomm
    exact hcomm

/-! ### The inputs of the Step -/

theorem exec_withInputs {i : Instr} (hrnd : ∀ x kk, i ≠ .rnd x kk) (hskp : ∀ x, i ≠ .skp x) (hsknp : ∀ x, i ≠ .sknp x)
    (s : State) (inp : StepInputs) : exec i (s.withInputs inp) = mapNext (·.withInputs inp) (exec i s) := by
  cases i
  case rnd x kk => exact absurd rfl (hrnd x kk)
  case skp x => exact absurd rfl (hskp x)
  case sknp x => exact absurd rfl (hsknp x)
  case call nnn => exact exec_call_comm (f := (·.withInputs inp)) rfl (fun _ _ => rfl) fun _ => rfl
  case ret => exact exec_ret_comm (f := (·.withInputs inp)) rfl (fun _ _ => rfl) fun _ => rfl
  case ldB x | storeRegs x | loadRegs x | drw x y n =>
    exact withRange_comm (f := (·.withInputs inp)) rfl rfl fun _ => rfl
  case seByte x kk | sneByte x kk | seReg x y | sneReg x y =>
    exact skipIf_comm (f := (·.withInputs inp)) (fun _ => rfl) rfl _
  all_goals rfl

/-- Settles O52: every instruction but RND, SKP and SKNP commutes with a change of the inputs. -/
theorem inputsIgnoredUnlessSampled : Obligations.InputsIgnoredUnlessSampled := by
  intro i s t inp hrnd hskp hsknp h
  have hcomm := exec_withInputs hrnd hskp hsknp s inp
  rw [h] at hcomm
  exact hcomm

/-! ### Dead stack entries -/

/-- The state with another stack, of the same depth. -/
def withStack (stack : Vector Word 16) (s : State) : State := { s with stack := stack }

/-- A stack that agrees with the state's on the live entries. -/
def AgreesBelowSp (stack : Vector Word 16) (s : State) : Prop := ∀ k : Fin 16, k.val < s.sp.val → stack[k] = s.stack[k]

theorem sameButDeadStack_iff {s t : State} :
    SameButDeadStack s t ↔ ∃ stack, t = withStack stack s ∧ AgreesBelowSp stack s := by
  constructor
  · rintro ⟨hsame, hlive⟩
    exact ⟨t.stack, congrArg (fun u => { u with stack := t.stack }) hsame, hlive⟩
  · rintro ⟨stack, rfl, hlive⟩
    exact ⟨rfl, hlive⟩

theorem exec_withStack {i : Instr} (hcall : ∀ nnn, i ≠ .call nnn) (hret : i ≠ .ret) (stack : Vector Word 16)
    (s : State) : exec i (withStack stack s) = mapNext (withStack stack) (exec i s) := by
  cases i
  case call nnn => exact absurd rfl (hcall nnn)
  case ret => exact absurd rfl hret
  case ldB x | storeRegs x | loadRegs x | drw x y n =>
    exact withRange_comm (f := withStack stack) rfl rfl fun _ => rfl
  case seByte x kk | sneByte x kk | seReg x y | sneReg x y | skp x | sknp x =>
    exact skipIf_comm (f := withStack stack) (fun _ => rfl) rfl _
  all_goals rfl

theorem beginOp_withStack (stack : Vector Word 16) (s : State) :
    (withStack stack s).beginOp = withStack stack s.beginOp := rfl

theorem tick_withStack (stack : Vector Word 16) (s : State) : (withStack stack s).tick = withStack stack s.tick := by
  by_cases hrun : s.run = .halted <;> simp [State.tick, withStack, hrun]

theorem afterLoadRom_withStack (stack : Vector Word 16) (s : State) (rom : List Byte) :
    (withStack stack s).afterLoadRom rom = withStack stack (s.afterLoadRom rom) := by
  by_cases hlen : rom.length > romMax
  · simp [State.afterLoadRom, State.loadRom, hlen]
  · by_cases hrun : s.run = .halted <;> simp [State.afterLoadRom, State.loadRom, withStack, State.setMem, hlen, hrun]

theorem pollKey_withStack (stack : Vector Word 16) (s : State) :
    (withStack stack s).pollKey = withStack stack s.pollKey := by
  cases hkey : s.host.inputs.keyEvent <;> simp [State.pollKey, withStack, State.writeV, hkey]

/-- The outcome is `s'` but for dead stack entries. -/
def IsNextButDeadStack (o : Host.Outcome State Fault Refusal) (s' : State) : Prop :=
  ∃ stack', o = .next (withStack stack' s') ∧ AgreesBelowSp stack' s'

/-- A step that leaves the call stack alone leaves the other stack alone too. -/
theorem isNextButDeadStack_of_kept {o : Host.Outcome State Fault Refusal} {stack : Vector Word 16} {s s' : State}
    (hlive : AgreesBelowSp stack s) (ho : o = .next (withStack stack s')) (hstack : s'.stack = s.stack)
    (hsp : s'.sp = s.sp) : IsNextButDeadStack o s' :=
  ⟨stack, ho, fun k hk => by rw [hstack]; exact hlive k (hsp ▸ hk)⟩

theorem raiseIn_butDeadStack {i : Instr} {e : ErrorKind} {stack : Vector Word 16} {s s' : State}
    (hlive : AgreesBelowSp stack s) (h : raiseIn i e s = .next s') :
    IsNextButDeadStack (raiseIn i e (withStack stack s)) s' := by
  cases h
  exact isNextButDeadStack_of_kept hlive rfl rfl rfl

theorem exec_call_butDeadStack {nnn : Addr12} {stack : Vector Word 16} {s s' : State}
    (hlive : AgreesBelowSp stack s) (h : exec (.call nnn) s = .next s') :
    IsNextButDeadStack (exec (.call nnn) (withStack stack s)) s' := by
  by_cases hsp : s.sp.val < 16
  · rw [exec_call_of_lt hsp] at h
    cases h
    refine ⟨_, exec_call_of_lt (s := withStack stack s) hsp, fun k hk => ?_⟩
    have hother := stack_afterCall nnn (withStack stack s) hsp k
    rw [stack_afterCall nnn s hsp k]
    by_cases hk' : k.val = s.sp.val
    · rw [if_pos hk']
      exact hother.trans (if_pos hk')
    · rw [if_neg hk']
      exact (hother.trans (if_neg hk')).trans (hlive k (by change k.val < s.sp.val + 1 at hk; omega))
  · have hfull : s.sp.val = 16 := by omega
    rw [exec_call_of_full hfull] at h
    rw [exec_call_of_full (s := withStack stack s) hfull]
    exact raiseIn_butDeadStack hlive h

theorem exec_ret_butDeadStack {stack : Vector Word 16} {s s' : State}
    (hlive : AgreesBelowSp stack s) (h : exec .ret s = .next s') :
    IsNextButDeadStack (exec .ret (withStack stack s)) s' := by
  by_cases hsp : 0 < s.sp.val
  · rw [exec_ret_of_pos hsp] at h
    cases h
    have htop : stack[s.sp.val - 1] = s.stack[s.sp.val - 1] :=
      hlive ⟨s.sp.val - 1, by omega⟩ (by simp only; omega)
    refine ⟨stack, ?_, fun k hk => hlive k ?_⟩
    · rw [exec_ret_of_pos (s := withStack stack s) hsp]
      simp [afterRet, withStack, htop]
    · change k.val < s.sp.val - 1 at hk
      omega
  · have hempty : s.sp.val = 0 := by omega
    rw [exec_ret_of_empty hempty] at h
    rw [exec_ret_of_empty (s := withStack stack s) hempty]
    exact raiseIn_butDeadStack hlive h

theorem exec_butDeadStack {i : Instr} {stack : Vector Word 16} {s s' : State} (hlive : AgreesBelowSp stack s)
    (h : exec i s = .next s') : IsNextButDeadStack (exec i (withStack stack s)) s' := by
  by_cases hcall : ∃ nnn, i = .call nnn
  · obtain ⟨nnn, rfl⟩ := hcall
    exact exec_call_butDeadStack hlive h
  by_cases hret : i = .ret
  · subst hret
    exact exec_ret_butDeadStack hlive h
  have hkept : KeepsStack s s' := by
    by_contra hkeeps
    rcases stackChangesOnlyByCallAndRet i s s' h hkeeps with hi | hi
    · exact hret hi
    · exact hcall hi
  have hcomm := exec_withStack (fun nnn hi => hcall ⟨nnn, hi⟩) hret stack s
  rw [h] at hcomm
  exact isNextButDeadStack_of_kept hlive hcomm hkept.1 hkept.2

theorem runInstruction_butDeadStack {stack : Vector Word 16} {s s' : State} (hlive : AgreesBelowSp stack s)
    (h : runInstruction s = .next s') : IsNextButDeadStack (runInstruction (withStack stack s)) s' := by
  rcases runInstruction_cases h with ⟨hb, i, hdec, hexec⟩ | ⟨hb, ⟨e, hdec⟩, hraise⟩ | ⟨hb, hraise⟩
  · rw [runInstruction_of_decodes (s := withStack stack s) hb hdec]
    exact exec_butDeadStack (s := s.advance) hlive hexec
  · rw [runInstruction_of_unknown (s := withStack stack s) hb hdec]
    cases hraise
    exact isNextButDeadStack_of_kept hlive rfl rfl rfl
  · rw [runInstruction_of_outside (s := withStack stack s) hb]
    cases hraise
    exact isNextButDeadStack_of_kept hlive rfl rfl rfl

theorem runStep_butDeadStack {stack : Vector Word 16} {s s' : State} (hlive : AgreesBelowSp stack s)
    (h : runStep s = .next s') : IsNextButDeadStack (runStep (withStack stack s)) s' := by
  cases hrun : s.run with
  | running =>
    rw [runStep_of_running hrun] at h
    rw [runStep_of_running (s := withStack stack s) hrun]
    exact runInstruction_butDeadStack hlive h
  | awaitingKey =>
    rw [runStep_of_awaitingKey hrun] at h
    rw [runStep_of_awaitingKey (s := withStack stack s) hrun]
    cases h
    rw [pollKey_withStack]
    exact isNextButDeadStack_of_kept hlive rfl (by rw [pollKey_eq]) (by rw [pollKey_eq])
  | halted =>
    rw [runStep_of_halted hrun] at h
    rw [runStep_of_halted (s := withStack stack s) hrun]
    cases h
    exact isNextButDeadStack_of_kept hlive rfl rfl rfl

theorem step_butDeadStack {stack : Vector Word 16} {s s' : State} (hlive : AgreesBelowSp stack s)
    (h : step s = .next s') : IsNextButDeadStack (step (withStack stack s)) s' := by
  rcases step_cases h with ⟨inp, hop, hstep⟩ | ⟨hop, rfl⟩ | ⟨rom, hop, rfl⟩ | ⟨hop, rfl⟩
  · rw [step_of_step (s := withStack stack s) hop]
    exact runStep_butDeadStack (s := begun s inp) hlive hstep
  · rw [step_of_tick (s := withStack stack s) hop, beginOp_withStack, tick_withStack]
    exact isNextButDeadStack_of_kept hlive rfl (by rw [tick_eq]; rfl) (by rw [tick_eq]; rfl)
  · rw [step_of_loadRom (s := withStack stack s) hop, beginOp_withStack, afterLoadRom_withStack]
    exact isNextButDeadStack_of_kept hlive rfl (by rw [afterLoadRom_eq]; rfl) (by rw [afterLoadRom_eq]; rfl)
  · rw [step_of_reset (s := withStack stack s) hop]
    exact ⟨_, rfl, fun k hk => absurd hk (Nat.not_lt_zero _)⟩

/-- Settles O53: every step either leaves the stack alone, writes the entry at SP, or reads one below SP. -/
theorem deadStackEntriesAreUnobservable : Obligations.DeadStackEntriesAreUnobservable := by
  intro s t s' hst h
  obtain ⟨stack, rfl, hlive⟩ := sameButDeadStack_iff.mp hst
  obtain ⟨stack', hstep, hlive'⟩ := step_butDeadStack hlive h
  exact ⟨_, hstep, sameButDeadStack_iff.mpr ⟨stack', rfl, hlive'⟩⟩

end Sys2Proof.Proofs
end

section
/-! Memory as its bytes (20_memory.md R64, R65, R76), and the three instructions that move runs of them
(46_memory_index.md R198 to R201): what each byte, register and I hold afterwards. -/

namespace Sys2Proof.Proofs

open Sys2Proof.Machine Sys2Proof.Claims

/-! ### The canonical form -/

theorem wfFrom_cons_iff {lo a : Nat} {b : Byte} {m : Memory} :
    Memory.wfFrom lo ((a, b) :: m) = true ↔ (lo ≤ a ∧ a < memSize ∧ b ≠ resetByte a) ∧ m.wfFrom (a + 1) = true := by
  simp only [Memory.wfFrom, Bool.and_eq_true, decide_eq_true_eq, bne_iff_ne, and_assoc]

/-- An entry of one memory that the other has not, at its address or below, would make them read apart there. -/
theorem read_ne_of_cons {lo lo' a : Nat} {b : Byte} {m m' : Memory} (hm : Memory.wfFrom lo ((a, b) :: m) = true)
    (hm' : m'.wfFrom lo' = true) (ha : a < lo') : Memory.read ((a, b) :: m) a ≠ m'.read a := by
  obtain ⟨⟨-, -, hb⟩, -⟩ := wfFrom_cons_iff.mp hm
  rwa [Memory.read, if_pos rfl, Memory.read_of_lt hm' ha]

/-- Below an entry with the same address and byte, the memories read alike too. -/
theorem read_tail_eq {a : Nat} {b : Byte} {m m' : Memory} (hm : m.wfFrom (a + 1) = true)
    (hm' : m'.wfFrom (a + 1) = true) (h : ∀ x, Memory.read ((a, b) :: m) x = Memory.read ((a, b) :: m') x) (x : Nat) :
    m.read x = m'.read x := by
  by_cases hx : x = a
  · rw [Memory.read_of_lt hm (by omega), Memory.read_of_lt hm' (by omega)]
  · simpa only [Memory.read, if_neg hx] using h x

theorem eq_of_read_eq : ∀ {m m' : Memory} {lo lo' : Nat}, m.wfFrom lo = true → m'.wfFrom lo' = true →
    (∀ a, m.read a = m'.read a) → m = m'
  | [], [], _, _, _, _, _ => rfl
  | [], (a, b) :: m', _, _, _, hm', h =>
    absurd (h a).symm (read_ne_of_cons (m' := []) (lo' := a + 1) hm' rfl (Nat.lt_succ_self a))
  | (a, b) :: m, [], _, _, hm, _, h =>
    absurd (h a) (read_ne_of_cons (m' := []) (lo' := a + 1) hm rfl (Nat.lt_succ_self a))
  | (a, b) :: m, (a', b') :: m', lo, lo', hm, hm', h => by
    obtain ⟨hhead, htail⟩ := wfFrom_cons_iff.mp hm
    obtain ⟨hhead', htail'⟩ := wfFrom_cons_iff.mp hm'
    rcases Nat.lt_trichotomy a a' with hlt | rfl | hlt
    · have hm'' := wfFrom_cons_iff.mpr ⟨⟨le_refl a', hhead'.2⟩, htail'⟩
      exact absurd (h a) (read_ne_of_cons hm hm'' hlt)
    · have hbyte : b = b' := by simpa only [Memory.read, if_true] using h a
      subst hbyte
      rw [eq_of_read_eq htail htail' (read_tail_eq htail htail' h)]
    · have hm'' := wfFrom_cons_iff.mpr ⟨⟨le_refl a, hhead.2⟩, htail⟩
      exact absurd (h a').symm (read_ne_of_cons hm' hm'' hlt)

/-- Settles O32: by the two lists, whose first difference would read apart. -/
theorem canonicalMemoryIsItsBytes : Obligations.CanonicalMemoryIsItsBytes := fun _ _ hm hm' h =>
  eq_of_read_eq hm hm' h

/-! ### The bytes of a run of stores -/

theorem read_storeBytes_add {bs : List Byte} {m : Memory} {a k : Nat} (ha : a + bs.length ≤ memSize)
    (hm : m.wf = true) (hk : k < bs.length) : (m.storeBytes a bs).read (a + k) = bs[k] := by
  rw [Memory.read_storeBytes bs m a (a + k) ha hm, if_pos (Nat.le_add_right a k), Nat.add_sub_cancel_left,
    List.getElem?_eq_getElem hk, Option.getD_some]

/-- The bytes after a run of stores at I, in the words of the claims. -/
theorem read_storeBytes_toNat {s : State} {bs : List Byte} {f : Nat → Nat} (ha : s.i.toNat + bs.length ≤ memSize)
    (hm : s.mem.wf = true) (hf : ∀ k (hk : k < bs.length), bs[k].toNat = f k) (a : Nat) :
    ((s.mem.storeBytes s.i.toNat bs).read a).toNat = byteAfterStore s bs.length f a := by
  unfold byteAfterStore
  split
  next hin =>
    obtain ⟨k, rfl⟩ : ∃ k, a = s.i.toNat + k := ⟨a - s.i.toNat, by omega⟩
    have hk : k < bs.length := by omega
    rw [read_storeBytes_add ha hm hk, hf k hk, Nat.add_sub_cancel_left]
  next hout => rw [Memory.read_storeBytes_outside bs _ _ _ (by omega)]

/-- The word that a fetch reads after a run of stores at I (R76). -/
theorem fetchedWord_toNat_of_storeBytes {s t : State} {bs : List Byte} {f : Nat → Nat}
    (ht : t.mem = s.mem.storeBytes s.i.toNat bs) (hpc : t.pc = s.pc) (ha : s.i.toNat + bs.length ≤ memSize)
    (hm : s.mem.wf = true) (hf : ∀ k (hk : k < bs.length), bs[k].toNat = f k) :
    t.fetchedWord.toNat =
      byteAfterStore s bs.length f s.pc.toNat * 256 + byteAfterStore s bs.length f (s.pc.toNat + 1) := by
  rw [State.fetchedWord, Memory.readWord, wordOfBytes_toNat, ht, hpc, read_storeBytes_toNat ha hm hf,
    read_storeBytes_toNat ha hm hf]

/-! ### LD B,Vx -/

/-- The k-th digit, the hundreds first (R198). -/
theorem bcdDigits_toNat (b : Byte) {k : Nat} (hk : k < (bcdDigits b).length) :
    (bcdDigits b)[k].toNat = b.toNat / 10 ^ (2 - k) % 10 := by
  have hb := b.isLt
  match k, hk with
  | 0, _ => simp [bcdDigits]; omega
  | 1, _ => simp [bcdDigits]; omega
  | 2, _ => simp [bcdDigits]; omega

/-- The state after LD B,Vx in range. -/
def afterBcd (x : Reg) (s : State) : State := s.setMem (s.mem.storeBytes s.i.toNat (bcdDigits (s.readV x)))

theorem exec_ldB_of_le {x : Reg} {s : State} (hi : s.i.toNat ≤ 4093) : exec (.ldB x) s = .next (afterBcd x s) :=
  withRange_of_inBounds ((inBounds_iff _ _).mpr (by omega))

theorem add_bcdDigits_length_le {s : State} (x : Reg) (hi : s.i.toNat ≤ 4093) :
    s.i.toNat + (bcdDigits (s.readV x)).length ≤ memSize := by
  simp only [bcdDigits, List.length_cons, List.length_nil, memSize]
  omega

/-- Settles O28: each digit is read back from its address. -/
theorem bcdStoresThreeDigits : Obligations.BcdStoresThreeDigits := by
  intro x s hm hi
  have hdigit (k : Nat) (hk : k < 3) :
      ((afterBcd x s).mem.read (s.i.toNat + k)).toNat = (s.readV x).toNat / 10 ^ (2 - k) % 10 := by
    have hlen : k < (bcdDigits (s.readV x)).length := hk
    rw [← bcdDigits_toNat (s.readV x) hlen, ← read_storeBytes_add (add_bcdDigits_length_le x hi) hm hlen]
    rfl
  have hb := (s.readV x).isLt
  have hhundreds := hdigit 0 (by omega)
  have hones := hdigit 2 (by omega)
  simp only [Nat.add_zero] at hhundreds
  refine ⟨afterBcd x s, exec_ldB_of_le hi, by omega, hdigit 1 (by omega), by omega, ?_, fun _ _ => rfl, rfl, rfl,
    ⟨rfl, rfl⟩, ⟨rfl, rfl⟩, rfl, ⟨rfl, rfl, rfl⟩, ⟨rfl, rfl⟩⟩
  intro a ha
  exact Memory.read_storeBytes_outside _ _ _ _ (by simpa [bcdDigits] using ha)

/-! ### LD [I],Vx and LD Vx,[I] -/

theorem inBounds_bulk {a : Nat} {x : Reg} (h : a + x.val ≤ 4095) : inBounds a (bulkCount x) = true :=
  (inBounds_iff _ _).mpr (by unfold bulkCount; omega)

/-- I after a bulk move in range, which does not wrap (R201). -/
theorem advancedI_toNat {x : Reg} {s : State} (h : s.i.toNat + x.val ≤ 4095) :
    (s.advancedI x).toNat = if s.config.indexAdvance = .legacy then s.i.toNat + x.val + 1 else s.i.toNat := by
  rw [State.advancedI_eq]
  split
  · rw [BitVec.toNat_add, BitVec.toNat_ofNat]
    omega
  · rfl

/-- The state after LD [I],Vx in range. -/
def afterBulkStore (x : Reg) (s : State) : State :=
  (s.setMem (s.mem.storeBytes s.i.toNat (s.v.toList.take (bulkCount x)))).setI (s.advancedI x)

theorem exec_storeRegs_of_le {x : Reg} {s : State} (h : s.i.toNat + x.val ≤ 4095) :
    exec (.storeRegs x) s = .next (afterBulkStore x s) := withRange_of_inBounds (inBounds_bulk h)

theorem add_storedRegs_length_le {x : Reg} {s : State} (h : s.i.toNat + x.val ≤ 4095) :
    s.i.toNat + (s.v.toList.take (bulkCount x)).length ≤ memSize := by
  rw [State.storedRegs_length]
  unfold memSize
  omega

theorem storedRegs_getElem (s : State) (x : Reg) {k : Nat} (hk : k < (s.v.toList.take (bulkCount x)).length) :
    (s.v.toList.take (bulkCount x))[k] = s.readV (Fin.ofNat 16 k) := by
  have hx := x.isLt
  rw [State.storedRegs_length] at hk
  have hreg : Fin.ofNat 16 k = ⟨k, by omega⟩ := Fin.ext (Nat.mod_eq_of_lt (by omega))
  rw [← Option.some_inj, ← List.getElem?_eq_getElem, State.storedRegs_getElem?, dif_pos (by omega), hreg]

/-- Settles O29: each register is read back from its address. -/
theorem bulkStoreWritesRegisters : Obligations.BulkStoreWritesRegisters := by
  intro x s hm hi
  refine ⟨afterBulkStore x s, exec_storeRegs_of_le hi, ?_, ?_, advancedI_toNat hi, fun _ _ => rfl, rfl,
    ⟨rfl, rfl⟩, ⟨rfl, rfl⟩, rfl, ⟨rfl, rfl, rfl⟩, ⟨rfl, rfl⟩⟩
  · intro k hk
    have hlen : k.val < (s.v.toList.take (bulkCount x)).length := by
      rw [State.storedRegs_length]
      exact Nat.lt_succ_of_le hk
    have hreg : Fin.ofNat 16 k.val = k := Fin.ext (Nat.mod_eq_of_lt k.isLt)
    rw [← hreg, ← storedRegs_getElem s x hlen, ← read_storeBytes_add (add_storedRegs_length_le hi) hm hlen, hreg]
    rfl
  · intro a ha
    exact Memory.read_storeBytes_outside _ _ _ _ (by rwa [State.storedRegs_length])

/-- The state after LD Vx,[I] in range. -/
def afterBulkLoad (x : Reg) (s : State) : State := (s.setV (s.loadedRegs x)).setI (s.advancedI x)

theorem exec_loadRegs_of_le {x : Reg} {s : State} (h : s.i.toNat + x.val ≤ 4095) :
    exec (.loadRegs x) s = .next (afterBulkLoad x s) := withRange_of_inBounds (inBounds_bulk h)

theorem afterBulkLoad_readV (x : Reg) (s : State) (k : Reg) :
    (afterBulkLoad x s).readV k = if k ≤ x then s.mem.read (s.i.toNat + k.val) else s.readV k := by
  rw [afterBulkLoad, State.setI_readV, State.setV_readV, State.loadedRegs_get]

theorem afterBulkLoad_frame (x : Reg) (s : State) :
    KeepsMem s (afterBulkLoad x s) ∧ (afterBulkLoad x s).pc = s.pc ∧ KeepsStack s (afterBulkLoad x s) ∧
      KeepsTimers s (afterBulkLoad x s) ∧ KeepsFb s (afterBulkLoad x s) ∧ KeepsRun s (afterBulkLoad x s) ∧
      KeepsRest s (afterBulkLoad x s) := by
  simp [afterBulkLoad, KeepsMem, KeepsStack, KeepsTimers, KeepsFb, KeepsRun, KeepsRest]

/-- Settles O30: the registers read as the bulk load made them. -/
theorem bulkLoadReadsRegisters : Obligations.BulkLoadReadsRegisters := fun x s hi =>
  ⟨afterBulkLoad x s, exec_loadRegs_of_le hi, afterBulkLoad_readV x s, advancedI_toNat hi, afterBulkLoad_frame x s⟩

/-- Settles O31: a fetch reads the two bytes at pc, each the byte stored there or the one that was there. -/
theorem storeIsSeenByTheNextFetch : Obligations.StoreIsSeenByTheNextFetch := by
  intro x s hm
  constructor
  · intro hi
    refine ⟨afterBulkStore x s, exec_storeRegs_of_le hi, ?_⟩
    rw [← State.storedRegs_length s x]
    exact fetchedWord_toNat_of_storeBytes rfl rfl (add_storedRegs_length_le hi) hm
      fun k hk => by rw [storedRegs_getElem s x hk]
  · intro hi
    exact ⟨afterBcd x s, exec_ldB_of_le hi, fetchedWord_toNat_of_storeBytes (bs := bcdDigits (s.readV x)) rfl rfl
      (add_bcdDigits_length_le x hi) hm fun k hk => bcdDigits_toNat _ hk⟩

end Sys2Proof.Proofs
end

section
/-! The drawing of a sprite (47_display.md R211, R212): the drawing loop draws the sprite of the claims, whose pixels it
flips; so a sprite drawn on a blank screen shows, and drawn twice it is gone. -/

namespace Sys2Proof.Proofs

open Sys2Proof.Machine Sys2Proof.Claims

/-- The pixels under a sprite whose rows are bytes of memory. -/
theorem spriteCovers_readBytes (m : Memory) (a len r0 x0 r c : Nat) :
    spriteCovers r0 x0 (m.readBytes a len) r c =
      (decide (r0 ≤ r ∧ r < r0 + len ∧ r < 32 ∧ x0 ≤ c ∧ c < x0 + 8 ∧ c < 64) &&
        (m.read (a + (r - r0))).getLsbD (7 - (c - x0))) := by
  unfold spriteCovers
  rw [Memory.readBytes_getElem?]
  by_cases hrow : r - r0 < len
  · have hin : (r0 ≤ r ∧ r < 32 ∧ x0 ≤ c ∧ c < x0 + 8 ∧ c < 64) ↔
        (r0 ≤ r ∧ r < r0 + len ∧ r < 32 ∧ x0 ≤ c ∧ c < x0 + 8 ∧ c < 64) := by omega
    simp only [hin, if_pos hrow, Option.getD_some]
  · have hout : ¬ (r0 ≤ r ∧ r < r0 + len ∧ r < 32 ∧ x0 ≤ c ∧ c < x0 + 8 ∧ c < 64) := by omega
    simp [if_neg hrow, hout]

/-- The sprite of the claims is the one that the drawing loop draws. -/
theorem spriteBit_eq_spriteCovers (s : State) (x y : Reg) (n : Nibble) (r c : Nat) :
    spriteBit s x y n r c =
      spriteCovers (s.originRow y) (s.originCol x) (s.mem.readBytes s.i.toNat n.toNat) r c :=
  (spriteCovers_readBytes _ _ _ _ _ _ _).symm

theorem drawn_pixel (s : State) (x y : Reg) (n : Nibble) (r c : Nat) :
    (s.drawn x y n).1.pixel r c = (s.fb.pixel r c ^^ spriteBit s x y n r c) := by
  rw [spriteBit_eq_spriteCovers]
  exact plotSprite_pixel _ _ _ _ _ _

theorem drawn_collision (s : State) (x y : Reg) (n : Nibble) :
    (s.drawn x y n).2 = true ↔ ∃ r c, spriteBit s x y n r c = true ∧ s.fb.pixel r c = true := by
  simp only [spriteBit_eq_spriteCovers]
  refine (plotSprite_collision _ _ _ _).trans (or_iff_right ?_)
  nofun

/-- The state after DRW Vx,Vy,n with every row in memory. -/
def afterDraw (x y : Reg) (n : Nibble) (s : State) : State :=
  (s.setFb (s.drawn x y n).1).writeV vf (collisionFlag (s.drawn x y n).2)

theorem exec_drw_of_le {x y : Reg} {n : Nibble} {s : State} (h : 1 ≤ n.toNat → s.i.toNat + n.toNat - 1 ≤ 4095) :
    exec (.drw x y n) s = .next (afterDraw x y n s) := withRange_of_inBounds ((inBounds_iff _ _).mpr h)

theorem afterDraw_pixel (s : State) (x y : Reg) (n : Nibble) (r c : Nat) :
    (afterDraw x y n s).fb.pixel r c = (s.fb.pixel r c ^^ spriteBit s x y n r c) := by
  rw [afterDraw, State.writeV_fb, State.setFb_fb, drawn_pixel]

theorem afterDraw_vf (s : State) (x y : Reg) (n : Nibble) :
    ((afterDraw x y n s).readV vf).toNat = if (s.drawn x y n).2 then 1 else 0 := by
  rw [afterDraw, State.readV_writeV_same, collisionFlag, flagByte_toNat]

theorem afterDraw_vf_one_or_zero (s : State) (x y : Reg) (n : Nibble) :
    ((afterDraw x y n s).readV vf).toNat = 1 ∨ ((afterDraw x y n s).readV vf).toNat = 0 := by
  rw [afterDraw_vf]
  split <;> simp

theorem afterDraw_vf_eq_one_iff (s : State) (x y : Reg) (n : Nibble) :
    ((afterDraw x y n s).readV vf).toNat = 1 ↔ ∃ r c, spriteBit s x y n r c = true ∧ s.fb.pixel r c = true := by
  rw [afterDraw_vf, ← drawn_collision]
  split <;> simp [*]

theorem afterDraw_frame (s : State) (x y : Reg) (n : Nibble) :
    KeepsV [vf] s (afterDraw x y n s) ∧ (afterDraw x y n s).i = s.i ∧ (afterDraw x y n s).pc = s.pc ∧
      KeepsMem s (afterDraw x y n s) ∧ KeepsStack s (afterDraw x y n s) ∧ KeepsTimers s (afterDraw x y n s) ∧
      KeepsRun s (afterDraw x y n s) ∧ KeepsRest s (afterDraw x y n s) := by
  have hv : KeepsV [vf] s (afterDraw x y n s) := keepsV_writeV (s.setFb _) vf _
  refine ⟨hv, ?_⟩
  simp [afterDraw, KeepsMem, KeepsStack, KeepsTimers, KeepsRun, KeepsRest]

/-- Settles O34: the pixels and the collision of the drawing loop. -/
theorem drwFlipsTheSpritesPixels : Obligations.DrwFlipsTheSpritesPixels := fun x y n s h =>
  ⟨afterDraw x y n s, exec_drw_of_le h, afterDraw_pixel s x y n, afterDraw_vf_one_or_zero s x y n,
    afterDraw_vf_eq_one_iff s x y n, afterDraw_frame s x y n⟩

/-- The sprite depends on its origin and on memory from I on, not on the screen. -/
theorem spriteBit_congr {s t : State} {x y : Reg} (hx : (t.readV x).toNat % 64 = (s.readV x).toNat % 64)
    (hy : (t.readV y).toNat % 32 = (s.readV y).toNat % 32) (hi : t.i = s.i) (hm : KeepsMem s t) (n : Nibble)
    (r c : Nat) : spriteBit t x y n r c = spriteBit s x y n r c := by
  have hread (a : Nat) : t.mem.read a = s.mem.read a := hm a
  simp only [spriteBit, hx, hy, hi, hread]

/-- Settles O35: a blank screen takes on the sprite's pixels, and no pixel of it collides. -/
theorem drawAfterClearShowsTheSprite : Obligations.DrawAfterClearShowsTheSprite := by
  intro x y n s t u h hcls hdrw
  rw [exec_cls] at hcls
  cases hcls
  rw [exec_drw_of_le (s := s.setFb Framebuffer.blank) h] at hdrw
  cases hdrw
  have hsprite (r c : Nat) : spriteBit (s.setFb Framebuffer.blank) x y n r c = spriteBit s x y n r c :=
    spriteBit_congr rfl rfl rfl (fun _ => rfl) n r c
  constructor
  · intro r c
    rw [afterDraw_pixel, hsprite, State.setFb_fb, Framebuffer.pixel_blank, Bool.false_xor]
  · have hnone : ¬ ((afterDraw x y n (s.setFb Framebuffer.blank)).readV vf).toNat = 1 := by
      rw [afterDraw_vf_eq_one_iff]
      rintro ⟨r, c, -, hset⟩
      rw [State.setFb_fb, Framebuffer.pixel_blank] at hset
      cases hset
    exact BitVec.eq_of_toNat_eq ((afterDraw_vf_one_or_zero _ x y n).resolve_left hnone)

/-- Settles O36: the second drawing is of the same sprite, and what it flips back was flipped by the first. -/
theorem drawingTwiceRestores : Obligations.DrawingTwiceRestores := by
  intro x y n s t u h hfirst hx hy hsecond
  rw [exec_drw_of_le h] at hfirst
  cases hfirst
  rw [exec_drw_of_le (s := afterDraw x y n s) h] at hsecond
  cases hsecond
  have hsprite (r c : Nat) : spriteBit (afterDraw x y n s) x y n r c = spriteBit s x y n r c :=
    spriteBit_congr hx hy rfl (fun _ => rfl) n r c
  refine ⟨Framebuffer.ext_pixel fun r c _ _ => ?_, ?_, afterDraw_vf_one_or_zero _ x y n⟩
  · rw [afterDraw_pixel, hsprite, afterDraw_pixel, Bool.xor_assoc, Bool.xor_self, Bool.xor_false]
  · rw [afterDraw_vf_eq_one_iff]
    refine exists_congr fun r => exists_congr fun c => ?_
    rw [hsprite, afterDraw_pixel]
    cases spriteBit s x y n r c <;> simp

end Sys2Proof.Proofs
end

section
/-! Arithmetic and shifts with their flags (43_load_arith.md R166 to R168; 44_shift.md R180 to R182), the random byte
(45_random.md R190) and the keys (48_keyboard.md R220 to R222): the value each writes, as a number or bit by bit. -/

namespace Sys2Proof.Proofs

open Sys2Proof.Machine Sys2Proof.Claims

/-! ### A result and its flag -/

theorem readV_writeVFlag_result (s : State) {x : Reg} (hx : x ≠ vf) (b flag : Byte) :
    (s.writeVFlag x b flag).readV x = b := by
  rw [State.readV_writeVFlag, if_neg hx, if_pos rfl]

theorem readV_writeVFlag_flag (s : State) (x : Reg) (b flag : Byte) : (s.writeVFlag x b flag).readV vf = flag := by
  rw [State.readV_writeVFlag, if_pos rfl]

/-- A result and a flag given as numbers. -/
theorem writeVFlag_spec (s : State) (x : Reg) {b flag : Byte} {n m : Nat} (hb : b.toNat = n) (hflag : flag.toNat = m) :
    OnlyV [x, vf] s (s.writeVFlag x b flag) ∧ (x ≠ vf → ((s.writeVFlag x b flag).readV x).toNat = n) ∧
      ((s.writeVFlag x b flag).readV vf).toNat = m :=
  ⟨onlyV_writeVFlag s x b flag, fun hx => by rw [readV_writeVFlag_result s hx, hb],
    by rw [readV_writeVFlag_flag, hflag]⟩

theorem carryFlag_toNat (a b : Byte) : (carryFlag a b).toNat = if a.toNat + b.toNat > 255 then 1 else 0 := by
  simp [carryFlag]

theorem noBorrowFlag_toNat (a b : Byte) : (noBorrowFlag a b).toNat = if a.toNat ≥ b.toNat then 1 else 0 := by
  simp [noBorrowFlag]

/-- Subtraction modulo 256, by whether it borrows. -/
theorem byte_sub_toNat (a b : Byte) :
    (a - b).toNat = if a.toNat < b.toNat then a.toNat + 256 - b.toNat else a.toNat - b.toNat := by
  have := a.isLt
  have := b.isLt
  rw [BitVec.toNat_sub]
  split <;> omega

/-- Settles O24: each is one write of a result and a flag. -/
theorem arithmeticSetsResultAndFlag : Obligations.ArithmeticSetsResultAndFlag := fun x y s =>
  ⟨⟨_, exec_addReg x y s, writeVFlag_spec s x (BitVec.toNat_add _ _) (carryFlag_toNat _ _)⟩,
    ⟨_, exec_subReg x y s, writeVFlag_spec s x (byte_sub_toNat _ _) (noBorrowFlag_toNat _ _)⟩,
    ⟨_, exec_subnReg x y s, writeVFlag_spec s x (byte_sub_toNat _ _) (noBorrowFlag_toNat _ _)⟩⟩

/-! ### Shifts -/

theorem shrFlag_toNat (b : Byte) : (shrFlag b).toNat = b.toNat % 2 := by
  rw [shrFlag, flagByte_toNat, BitVec.getLsbD, Nat.testBit_zero]
  rcases Nat.mod_two_eq_zero_or_one b.toNat with h | h <;> simp [h]

theorem shlFlag_toNat (b : Byte) : (shlFlag b).toNat = b.toNat / 128 := by
  have hb := b.isLt
  have hbit : b.getLsbD 7 = decide (b.toNat / 128 % 2 = 1) := Nat.testBit_eq_decide_div_mod_eq
  rw [shlFlag, flagByte_toNat, hbit]
  simp only [decide_eq_true_eq]
  split <;> omega

theorem ushiftRight_one_toNat (b : Byte) : (b >>> 1).toNat = b.toNat / 2 := by
  rw [BitVec.toNat_ushiftRight, Nat.shiftRight_eq_div_pow, pow_one]

theorem shiftLeft_one_toNat (b : Byte) : (b <<< 1).toNat = b.toNat * 2 % 256 := by
  rw [BitVec.toNat_shiftLeft, Nat.shiftLeft_eq, pow_one]

/-- Settles O25: each is one write of a result and a flag, both of the configured source. -/
theorem shiftsByConfiguredSource : Obligations.ShiftsByConfiguredSource := by
  intro x y s
  simp only [← State.shiftSource_toNat]
  exact ⟨⟨_, exec_shr x y s, writeVFlag_spec s x (ushiftRight_one_toNat _) (shrFlag_toNat _)⟩,
    ⟨_, exec_shl x y s, writeVFlag_spec s x (shiftLeft_one_toNat _) (shlFlag_toNat _)⟩⟩

/-! ### The random byte -/

/-- Settles O26: one write of V[x], of a conjunction, which is at most its mask. -/
theorem rndMasksTheHostsByte : Obligations.RndMasksTheHostsByte := fun x kk s =>
  ⟨_, exec_rnd x kk s, onlyV_writeV s x _,
    fun k _ => by rw [State.readV_writeV_same, BitVec.getLsbD_and],
    by rw [State.readV_writeV_same, BitVec.toNat_and]; exact Nat.and_le_right⟩

/-! ### Keys -/

theorem keyPressed_of_toNat_eq {s : State} {x : Reg} {k : Key} (h : (s.readV x).toNat = k.val) :
    s.keyPressed x = s.host.inputs.keysDown[k] := by
  simp [State.keyPressed, h]

theorem keyPressed_of_toNat_gt {s : State} {x : Reg} (h : (s.readV x).toNat > 15) : s.keyPressed x = false :=
  dif_neg (by omega)

/-- Settles O37: both skips are one conditional write of pc, on the key state and on its negation. -/
theorem keySkipsFollowTheKeyState : Obligations.KeySkipsFollowTheKeyState := by
  intro x s
  refine ⟨_, _, exec_skp x s, exec_sknp x s, onlyPc_skipIf s _, onlyPc_skipIf s _, ?_, ?_, ?_⟩
  · intro k hk hdown
    rw [keyPressed_of_toNat_eq hk, hdown]
    exact ⟨rfl, rfl⟩
  · intro k hk hup
    rw [keyPressed_of_toNat_eq hk, hup]
    exact ⟨rfl, rfl⟩
  · intro hcode
    rw [keyPressed_of_toNat_gt hcode]
    exact ⟨rfl, rfl⟩

/-- Settles O38: the meaning writes RUN and WAIT_REG. -/
theorem ldVxKSuspends : Obligations.LdVxKSuspends := fun x s =>
  ⟨_, exec_ldVxK x s, rfl, rfl, fun _ _ => rfl, rfl, rfl, fun _ => rfl, ⟨rfl, rfl⟩, ⟨rfl, rfl⟩, rfl, rfl, rfl, rfl⟩

end Sys2Proof.Proofs
end

section
/-! The host's own operations: Tick (49_timers.md R233, R234), LoadRom (40_execution_cycle.md R131; 60_exceptions.md
R247), Reset (70_reset_and_hazards.md R270), and the boot with and without a ROM (R271, R273). -/

namespace Sys2Proof.Proofs

open Sys2Proof.Machine Sys2Proof.Claims

/-! ### Tick -/

theorem tick_of_not_halted {s : State} (hrun : s.run ≠ .halted) :
    s.tick = { s with dt := tickTimer s.dt, st := tickTimer s.st } := if_neg hrun

/-- Settles O40: each timer counts down by one. -/
theorem tickCountsEachTimerDown : Obligations.TickCountsEachTimerDown := by
  intro s hop hrun
  refine ⟨_, (step_of_tick hop).trans (congrArg Host.Outcome.next (tick_of_not_halted (s := s.beginOp) hrun)),
    tickTimer_toNat s.dt, tickTimer_toNat s.st, rfl⟩

/-- One Tick from the agenda, in the words of the claim about any number of them. -/
theorem step_of_tick_agenda {s : State} {rest : List HostOp} (hrun : s.run ≠ .halted)
    (hagenda : s.host.agenda = .tick :: rest) :
    ∃ t, step s = .next t ∧ t.dt.toNat = s.dt.toNat - 1 ∧ t.st.toNat = s.st.toNat - 1 ∧
      SameCore { s with dt := t.dt, st := t.st } t ∧ t.host.agenda = rest := by
  refine ⟨_, (step_of_tick (nextOp_of_cons hagenda)).trans
    (congrArg Host.Outcome.next (tick_of_not_halted (s := s.beginOp) hrun)),
    tickTimer_toNat s.dt, tickTimer_toNat s.st, rfl, ?_⟩
  simp [hagenda]

/-- Settles O56: by induction on the number of Ticks, the first one taken off the agenda. -/
theorem anyNumberOfTicksBetweenSteps : Obligations.AnyNumberOfTicksBetweenSteps := by
  intro n
  induction n with
  | zero =>
    intro s rest hrun hagenda
    exact ⟨s, .here, rfl, rfl, rfl, hagenda⟩
  | succ n ih =>
    intro s rest hrun hagenda
    obtain ⟨t, hstep, hdt, hst, hcore, hagenda'⟩ := step_of_tick_agenda hrun hagenda
    have hrun' : t.run ≠ .halted := by
      have := congrArg State.run hcore
      simp only at this
      rwa [this]
    obtain ⟨u, hruns, hdt', hst', hcore', hagenda''⟩ := ih t rest hrun' hagenda'
    have hcore'' : { u with host := s.host } = { s with dt := u.dt, st := u.st } :=
      calc { u with host := s.host } = { t with dt := u.dt, st := u.st, host := s.host } :=
            congrArg (fun v : State => { v with host := s.host }) hcore'
        _ = { s with dt := u.dt, st := u.st } :=
            congrArg (fun v : State => { v with dt := u.dt, st := u.st }) hcore
    exact ⟨u, .next hstep hruns, by omega, by omega, hcore'', hagenda''⟩

/-! ### LoadRom -/

theorem loadRom_of_gt {rom : List Byte} (hlen : rom.length > 3584) (s : State) :
    s.loadRom rom = .error .romTooLarge := if_pos hlen

theorem loadRom_of_le {rom : List Byte} (hlen : rom.length ≤ 3584) {s : State} (hrun : s.run ≠ .halted) :
    s.loadRom rom = .ok (s.setMem (s.mem.storeBytes romBase rom)) := by
  have hfits : ¬ rom.length > romMax := Nat.not_lt_of_le hlen
  rw [State.loadRom, if_neg hfits, if_neg hrun]

theorem afterLoadRom_of_gt {rom : List Byte} (hlen : rom.length > 3584) (s : State) : s.afterLoadRom rom = s := by
  rw [State.afterLoadRom, loadRom_of_gt hlen]

theorem afterLoadRom_of_le {rom : List Byte} (hlen : rom.length ≤ 3584) {s : State} (hrun : s.run ≠ .halted) :
    s.afterLoadRom rom = s.setMem (s.mem.storeBytes romBase rom) := by
  rw [State.afterLoadRom, loadRom_of_le hlen hrun]

theorem romBase_add_length_le {rom : List Byte} (hlen : rom.length ≤ 3584) : romBase + rom.length ≤ memSize := by
  unfold romBase memSize
  omega

/-- Settles O41: by whether the ROM fits; each of its bytes is read back from its address. -/
theorem loadRomCopiesOrRejects : Obligations.LoadRomCopiesOrRejects := by
  intro s rom hm hrun hop
  constructor
  · intro hlen
    refine ⟨loadRom_of_gt hlen s, _, step_of_loadRom hop, ?_⟩
    rw [afterLoadRom_of_gt hlen]
    rfl
  · intro hlen
    have hstep : step s = .next (s.beginOp.setMem (s.mem.storeBytes romBase rom)) :=
      (step_of_loadRom hop).trans (congrArg Host.Outcome.next (afterLoadRom_of_le (s := s.beginOp) hlen hrun))
    exact ⟨_, _, loadRom_of_le hlen hrun, hstep, rfl,
      fun k hk => read_storeBytes_add (romBase_add_length_le hlen) hm hk,
      fun a ha => Memory.read_storeBytes_outside _ _ _ _ ha, rfl⟩

/-! ### Reset -/

/-- The font is the table of R62, glyph by glyph. -/
theorem glyphRows_eq_resetByte :
    ∀ d < 16, ∀ k < 5, glyphRows[d]?.bind (·[k]?) = some (resetByte (5 * d + k)) := by decide

/-- Above the font, memory is zero after Reset (R61). -/
theorem resetByte_of_le {a : Nat} (ha : 80 ≤ a) : resetByte a = 0 := by
  rw [resetByte, List.getElem?_eq_none ha, Option.getD_none]

/-- Settles O1: the step leaves the reset core, whose memory is the font and zero above it. -/
theorem resetRestoresEveryElement : Obligations.ResetRestoresEveryElement := by
  intro s hop
  refine ⟨s.beginOp.resetCore, step_of_reset hop, fun d k hd hk => glyphRows_eq_resetByte d hd k hk,
    fun a ha => resetByte_of_le ha, rfl, ?_, rfl, rfl, ?_, rfl, rfl, fun r c => Framebuffer.pixel_blank r c, rfl,
    rfl, rfl, rfl, rfl⟩
  · intro r
    simp [State.readV]
  · intro k
    simp

/-! ### The boot -/

/-- The core after Reset and LoadRom. -/
def booted (rom : List Byte) (t : State) : State := t.beginOp.setMem (Memory.storeBytes [] romBase rom)

theorem launched_booted {rom : List Byte} (hlen : rom.length ≤ 3584) (s : State) :
    Launched rom (booted rom s.beginOp.resetCore) :=
  launched_iff.mpr ⟨hlen, rfl⟩

theorem read_booted {rom : List Byte} (hlen : rom.length ≤ 3584) (t : State) {k : Nat} (hk : k < rom.length) :
    (booted rom t).mem.read (0x200 + k) = rom[k] :=
  read_storeBytes_add (romBase_add_length_le hlen) rfl hk

theorem read_booted_reserved (rom : List Byte) (t : State) {a : Nat} (hlo : 0x50 ≤ a) (hhi : a ≤ 0x1FF) :
    (booted rom t).mem.read a = 0 := by
  have hbelow : a < romBase ∨ romBase + rom.length ≤ a := .inl (by unfold romBase; omega)
  rw [booted, State.setMem_mem, Memory.read_storeBytes_outside rom [] romBase a hbelow]
  exact resetByte_of_le hlo

/-- Settles O2: the first two bytes of the ROM stand at pc. -/
theorem entryPointAfterReset : Obligations.EntryPointAfterReset := by
  intro s t rom hmin hlen hreset hstep hload
  rw [step_of_reset hreset] at hstep
  cases hstep
  have hu : step s.beginOp.resetCore = .next (booted rom s.beginOp.resetCore) :=
    (step_of_loadRom hload).trans (congrArg Host.Outcome.next (afterLoadRom_of_le hlen (by simp)))
  have h0 : (booted rom s.beginOp.resetCore).mem.read 0x200 = rom[0] := read_booted hlen _ (k := 0) (by omega)
  have h1 : (booted rom s.beginOp.resetCore).mem.read (0x200 + 1) = rom[1] := read_booted hlen _ (k := 1) (by omega)
  have hword : (booted rom s.beginOp.resetCore).fetchedWord = wordOfBytes rom[0] rom[1] := by
    rw [← h0, ← h1]
    rfl
  refine ⟨_, hu, launched_booted hlen s, rfl, rfl, rfl, fun a hlo hhi => read_booted_reserved rom _ hlo hhi, ?_, ?_⟩
  · rw [hword, wordOfBytes_toNat]
  · intro inp i hop hdec
    rw [← h0, ← h1] at hdec
    exact step_of_decodes hop rfl (show (0x200 : Word).toNat + 1 ≤ 4095 by decide) hdec

/-- Settles O54: the word at 0x200 after Reset is zero, which is SYS. -/
theorem bootWithoutRomHalts : Obligations.BootWithoutRomHalts := by
  intro s t inp hreset hstep hop
  rw [step_of_reset hreset] at hstep
  cases hstep
  have hpc : s.beginOp.resetCore.pc.toNat + 1 ≤ 4095 := show (0x200 : Word).toNat + 1 ≤ 4095 by decide
  have hdec : decodeWord (resetByte 0x200 ++ resetByte 0x201) = .ok (.sys 0) := by
    rw [resetByte_of_le (by decide), resetByte_of_le (by decide)]
    rfl
  refine ⟨_, (step_of_decodes hop rfl hpc hdec).trans (raiseIn_eq _ _ _), ?_⟩
  simp [SameCore, encodeWord, formatA]

end Sys2Proof.Proofs
end
